-- ==== Sys2Proof/Word.lean ====
section
/-! DEFINITION. The numbers of the machine. The domain `WORD` of a cell, of the relative base and of a channel item is the
unbounded integers, Lean's `Int` (R9, R10, R104; log entry 1). The domain `ADDR` of a cell address and of the instruction
pointer is the unbounded naturals, Lean's `Nat` (R9, R40; log entry 2); an address being COMPUTED is an `Int`, may be negative,
and is checked before it is used (R41). Both types stand under Lean's own names, so that their lemmas and procedures apply. -/

namespace Sys2Proof

/-- Division rounded toward zero (R10). -/
abbrev tdiv (a b : Int) : Int :=
  a.tdiv b

/-- The remainder of `tdiv`, which is zero or has the sign of `a` (R10). -/
abbrev trem (a b : Int) : Int :=
  a.tmod b

end Sys2Proof
end

