-- ==== Sys2Proof/Config.lean ====
section
/-! DEFINITION. What an implementation could fix and this spec fixes (R9, 92_eei_decisions.md). Every parameter of the
spec has a value, so there is no free value and no opaque constant here. The parameters that are types are in Word.lean
(`WORD`, `ADDR`); those that are policies are the rules the operations of Machine/ follow (log entries 3 to 12). -/

namespace Sys2Proof

/-- What a cell that nothing has written holds: "unwritten cells read as 0" (R21, R33, R42). -/
def Config.unwritten : Int := 0

/-- The address at which execution starts after reset (R33; log entry 24). -/
def Config.entryPoint : Nat := 0

/-- The relative base after reset: "initialized to 0" (R24, R33). -/
def Config.relativeBaseAtReset : Int := 0

end Sys2Proof
end

