-- ==== Sys2Proof/Syntax.lean ====
section
/-! DEFINITION. The instructions of the opcode table, as the decoder hands them to the sequencer. -/

namespace Sys2Proof

/-- The addressing mode of an operand (R64). `invalid d` is a mode digit `d` that names no mode (3 to 9, R70): the decoder
only splits digits, and the sequencer raises `InvalidMode` when it is about to use the operand, so the digit has to
reach it (log entry 4). -/
inductive Mode where
  | positional
  | immediate
  | relative
  | invalid (digit : Int)
deriving DecidableEq, Repr

/-- An operand is read for its value or names the cell written (R83). -/
inductive Role where
  | source
  | destination
deriving DecidableEq, Repr

/-- The four numbers the decoder takes out of one instruction word (R29, R62, R63). -/
structure Decoded where
  op : Int
  m1 : Int
  m2 : Int
  m3 : Int
deriving DecidableEq, Repr

/-- One constructor per row of spec/opcode_table.json, carrying the mode of each operand the instruction HAS (R61, R66, R68).
The operand words are cells of memory at `ip + 1`, `ip + 2`, `ip + 3`, which the operand resolver reads (R60, R72, R82). -/
inductive Instr where
  | add (m1 m2 m3 : Mode)
  | mul (m1 m2 m3 : Mode)
  | input (m1 : Mode)
  | output (m1 : Mode)
  | jumpIfTrue (m1 m2 : Mode)
  | jumpIfFalse (m1 m2 : Mode)
  | lessThan (m1 m2 m3 : Mode)
  | equals (m1 m2 m3 : Mode)
  | adjustBase (m1 : Mode)
  | halt
deriving DecidableEq, Repr

/-- Why the decoder gives no instruction: the opcode digits select no row (R69). It keeps the whole word (R161). -/
inductive DecodeError where
  | unknownOpcode (w : Int)
deriving DecidableEq, Repr

end Sys2Proof
end

