-- ==== Sys2Proof/Machine/State.lean ====
section
/-! DEFINITION. The state of the machine: the seven elements of 10_state.md and nothing else (R20 to R33). -/

namespace Sys2Proof.Machine

/-- What a fault records (R160). -/
inductive Cause where
  /-- The word at `ip` decodes to no row of the opcode map; `w` is the whole word (R161). -/
  | unknownOpcode (w : Int)
  /-- An input instruction found the input channel empty (R162). -/
  | inputStarved
  /-- The negative integer `addr` was about to be used as a cell address (R163). -/
  | negativeAddress (addr : Int)
  /-- Operand `i` was about to be resolved and its mode digit is `m`, one of 3 to 9 (R164). -/
  | invalidMode (i : Nat) (m : Int)
deriving DecidableEq, Repr

/-- The run state (R25). `faulted` holds the cause together with its recorded value. -/
inductive Status where
  | running
  | halted
  | faulted (c : Cause)
deriving DecidableEq, Repr

/-- The Memory as data: the cells that do not read as zero, by rising address (R21; log entry 18). -/
abbrev Memory := List (Nat × Int)

/-- The seven elements of state (R11). -/
structure State where
  /-- The cell array (R21). -/
  mem : Memory
  /-- The extent: one more than the highest address ever written or loaded (R22). -/
  len : Nat
  /-- The instruction pointer (R23). -/
  ip : Nat
  /-- The relative base; it may be negative (R24). -/
  rb : Int
  /-- Running, halted or faulted (R25). -/
  status : Status
  /-- The input channel, head first (R26). -/
  inq : List Int
  /-- The output channel, oldest item first (R27). -/
  outq : List Int
deriving DecidableEq, Repr

/-- No step of this machine ends in a fault outcome, so the type has no constructor. The faults of the spec are TAKEN: the
step answers a next state whose `status` is `faulted` (R166), which keeps the precise state the spec describes.
Nobody raises it; its absence is safe, because every way the spec stops the core is a status (log entry 15). -/
inductive Fault where
deriving DecidableEq, Repr

/-- Why a step request is refused. -/
inductive Refusal where
  /-- A step was requested of a halted core: no step is enabled and nothing changes (R136, R142). Raised by `step` only.
  Safe: the model has no run past a halt (log entry 11). -/
  | stepAfterHalt
  /-- A step was requested of a core that took the fault `c`: no step is enabled and nothing changes (R142, R166, R168).
  Raised by `step` only. Safe: the model has no run past a fault (log entry 11). -/
  | stepAfterFault (c : Cause)
  /-- The instruction has no meaning in the model. Raised by no arm of `exec`: every row of the table has its meaning. Safe. -/
  | notModelled (mnemonic : String)
deriving DecidableEq, Repr

/-- The core right after reset with the empty program and the empty input, `Reset([], [])` (R33, R141, R190). The program and
the input are the host's parameters; `hostReset` gives every other choice of them (log entry 16). -/
def State.reset : State where
  mem := []
  len := 0
  ip := Config.entryPoint
  rb := Config.relativeBaseAtReset
  status := .running
  inq := []
  outq := []

end Sys2Proof.Machine
end

