-- ==== Sys2Proof/Machine/Flags.lean ====
section
/-! DEFINITION. There are no flags and no condition codes (R28). What stands in their place: the 1 or 0 a compare writes to
memory, and the test of a value against zero that a conditional jump makes. -/

namespace Sys2Proof.Machine

/-- What less-than stores: 1 if `a < b` as signed integers, else 0 (R102). -/
def lessThanWord (a b : Int) : Int :=
  if a < b then 1 else 0

/-- What equals stores: 1 if `a = b`, else 0 (R103). -/
def equalsWord (a b : Int) : Int :=
  if a = b then 1 else 0

/-- The condition of jump-if-true: any non-zero value, a negative one included (R120). -/
def takenIfTrue (v : Int) : Bool :=
  decide (v ≠ 0)

/-- The condition of jump-if-false: zero only (R121). -/
def takenIfFalse (v : Int) : Bool :=
  decide (v = 0)

end Sys2Proof.Machine
end

