-- ==== Sys2Proof/WellFormed.lean ====
section
/-! DEFINITION. Which terms of Instr stand for an encoding: every mode is one decimal digit, written the one way it is written. -/

namespace Sys2Proof

/-- A mode stands for a decimal digit: `invalid` carries one of 3 to 9 and nothing else (R64, R70). -/
def Mode.wf : Mode → Bool
  | .positional => true
  | .immediate => true
  | .relative => true
  | .invalid d => decide (3 ≤ d ∧ d ≤ 9)

/-- A mode names one of the three modes of R64. -/
def Mode.legal : Mode → Bool
  | .positional => true
  | .immediate => true
  | .relative => true
  | .invalid _ => false

/-- The instruction has an encoding. An instruction with an invalid mode digit has one, and running it raises
`InvalidMode` (R70), so it is well-formed. -/
def Instr.wf : Instr → Bool
  | .add m1 m2 m3 => m1.wf && m2.wf && m3.wf
  | .mul m1 m2 m3 => m1.wf && m2.wf && m3.wf
  | .input m1 => m1.wf
  | .output m1 => m1.wf
  | .jumpIfTrue m1 m2 => m1.wf && m2.wf
  | .jumpIfFalse m1 m2 => m1.wf && m2.wf
  | .lessThan m1 m2 m3 => m1.wf && m2.wf && m3.wf
  | .equals m1 m2 m3 => m1.wf && m2.wf && m3.wf
  | .adjustBase m1 => m1.wf
  | .halt => true

end Sys2Proof
end

