-- ==== Sys2Proof/Decode.lean ====
section
/-! DEFINITION. The decoder (R61 to R70), and after it the encoder. The encoding is decimal: fields are digits of an integer. -/

namespace Sys2Proof

/-- The digits of an instruction word: `w mod 100` and the digits at 10^2, 10^3, 10^4, with the division that rounds
toward zero on a negative word (R10, R62, R63; log entry 3). Digits at 10^5 and above take no part (R65). -/
def splitWord (w : Int) : Decoded where
  op := trem w 100
  m1 := trem (tdiv w 100) 10
  m2 := trem (tdiv w 1000) 10
  m3 := trem (tdiv w 10000) 10

/-- The mode a digit names (R64), or the digit itself where it names none (R70). -/
def Mode.ofDigit (d : Int) : Mode :=
  if d = 0 then .positional
  else if d = 1 then .immediate
  else if d = 2 then .relative
  else .invalid d

/-- The row of the opcode map that the opcode digits select, with the modes of the operands that row has (R66, R68). -/
def selectRow (d : Decoded) : Option Instr :=
  let a := Mode.ofDigit d.m1
  let b := Mode.ofDigit d.m2
  let c := Mode.ofDigit d.m3
  if d.op = 1 then some (.add a b c)
  else if d.op = 2 then some (.mul a b c)
  else if d.op = 3 then some (.input a)
  else if d.op = 4 then some (.output a)
  else if d.op = 5 then some (.jumpIfTrue a b)
  else if d.op = 6 then some (.jumpIfFalse a b)
  else if d.op = 7 then some (.lessThan a b c)
  else if d.op = 8 then some (.equals a b c)
  else if d.op = 9 then some (.adjustBase a)
  else if d.op = 99 then some .halt
  else none

/-- The decoder, total over all integers (R62, R63, R69). -/
def decode (w : Int) : Except DecodeError Instr :=
  match selectRow (splitWord w) with
  | some i => .ok i
  | none => .error (.unknownOpcode w)

/-- The decoder as the host asks for it: `w` is the integer in the instruction word's cell. A cell has no bit width (R10), so
how many bits of it the table gives says nothing more, and the operand words of zeros stay in their own cells, which the
decoder does not read (R60; log entry 17). -/
def decodeTableWord (_nbits w : Nat) : Option Instr :=
  match decode (w : Int) with
  | .ok i => some i
  | .error _ => none

/-- The opcode of a row (R68). -/
def Instr.opcode : Instr → Int
  | .add _ _ _ => 1
  | .mul _ _ _ => 2
  | .input _ => 3
  | .output _ => 4
  | .jumpIfTrue _ _ => 5
  | .jumpIfFalse _ _ => 6
  | .lessThan _ _ _ => 7
  | .equals _ _ _ => 8
  | .adjustBase _ => 9
  | .halt => 99

/-- The role and the mode of each operand, in slot order (R61, R83). -/
def Instr.operands : Instr → List (Role × Mode)
  | .add m1 m2 m3 => [(.source, m1), (.source, m2), (.destination, m3)]
  | .mul m1 m2 m3 => [(.source, m1), (.source, m2), (.destination, m3)]
  | .input m1 => [(.destination, m1)]
  | .output m1 => [(.source, m1)]
  | .jumpIfTrue m1 m2 => [(.source, m1), (.source, m2)]
  | .jumpIfFalse m1 m2 => [(.source, m1), (.source, m2)]
  | .lessThan m1 m2 m3 => [(.source, m1), (.source, m2), (.destination, m3)]
  | .equals m1 m2 m3 => [(.source, m1), (.source, m2), (.destination, m3)]
  | .adjustBase m1 => [(.source, m1)]
  | .halt => []

/-- How many consecutive cells the instruction occupies: its word and one per operand (R60, R67). -/
def Instr.length (i : Instr) : Nat :=
  1 + i.operands.length

/-- The decimal digit of a mode (R64). -/
def Mode.digit : Mode → Int
  | .positional => 0
  | .immediate => 1
  | .relative => 2
  | .invalid d => d

/-- The number the mode digits make, least significant first. -/
def modeDigits : List (Role × Mode) → Int
  | [] => 0
  | (_, m) :: rest => m.digit + 10 * modeDigits rest

/-- The canonical instruction word `op + 100*m1 + 1000*m2 + 10000*m3`, with 0 for an operand the instruction lacks (R61). -/
def encode (i : Instr) : Int :=
  i.opcode + 100 * modeDigits i.operands

end Sys2Proof
end

