-- ==== Sys2Proof/Machine/Ops.lean ====
section
/-! DEFINITION. The named operations over memory, pointer, base, status and channels, and taking a fault. -/

namespace Sys2Proof.Machine

/-! ## The cell array as data -/

/-- What a cell of the array holds: the listed value, or what an unwritten cell holds (R21). -/
def Memory.lookup : Memory → Nat → Int
  | [], _ => Config.unwritten
  | (b, v) :: rest, a => if b = a then v else Memory.lookup rest a

/-- The array with cell `a` holding `v`. It keeps the canonical form: rising addresses, no listed cell that reads as an
unlisted one does (log entry 18). -/
def Memory.store : Memory → Nat → Int → Memory
  | [], a, v => if v = Config.unwritten then [] else [(a, v)]
  | (b, u) :: rest, a, v =>
    if a < b then
      if v = Config.unwritten then (b, u) :: rest else (a, v) :: (b, u) :: rest
    else if a = b then
      if v = Config.unwritten then rest else (a, v) :: rest
    else (b, u) :: Memory.store rest a v

/-- The canonical form of the array: addresses strictly rising, no listed cell that reads as an unlisted one does. -/
abbrev Memory.wf (m : Memory) : Prop :=
  m.Pairwise (fun c d => c.1 < d.1) ∧ ∀ c ∈ m, c.2 ≠ Config.unwritten

/-- Every listed cell lies inside the extent, so that every cell at or beyond it reads as 0 (R21, R32 (b)). -/
abbrev Memory.within (m : Memory) (len : Nat) : Prop :=
  ∀ c ∈ m, c.1 < len

/-- The array that holds the integers of a list at consecutive addresses from `a` on (R33, R141). -/
def loadFrom : Nat → List Int → Memory
  | _, [] => []
  | a, v :: rest => if v = Config.unwritten then loadFrom (a + 1) rest else (a, v) :: loadFrom (a + 1) rest

/-! ## The memory interface -/

/-- The integer in cell `a`: 0 at or beyond the extent (R42). -/
def State.readCell (s : State) (a : Nat) : Int :=
  if a < s.len then s.mem.lookup a else 0

/-- Store `v` in cell `a`, growing the extent to `a + 1` when `a` lies at or beyond it (R43). -/
def State.writeCell (s : State) (a : Nat) (v : Int) : State :=
  { s with mem := s.mem.store a v, len := if s.len ≤ a then a + 1 else s.len }

/-- An integer as a cell address: a negative one raises `NegativeAddress` (R41; log entry 6). -/
def checkAddr (a : Int) : Except Cause Nat :=
  if a < 0 then .error (.negativeAddress a) else .ok a.toNat

/-- `MemRead(addr, 1)` (R42). -/
def memRead (a : Int) (s : State) : Except Cause Int := do
  let n ← checkAddr a
  return s.readCell n

/-- `MemWrite(addr, 1, v)` (R43). -/
def memWrite (a : Int) (v : Int) (s : State) : Except Cause State := do
  let n ← checkAddr a
  return s.writeCell n v

/-! ## The channels -/

/-- `inq <- rest`. -/
def setInput (rest : List Int) (s : State) : State :=
  { s with inq := rest }

/-- `InPop()`: the head of the input channel and the state without it; `InputStarved` when it is empty (R110; log entry 7). -/
def inPop (s : State) : Except Cause (Int × State) :=
  match s.inq with
  | [] => .error .inputStarved
  | v :: rest => .ok (v, setInput rest s)

/-- `OutPush(v)`: append `v` at the tail of the output channel; it always succeeds (R111; log entry 12). -/
def outPush (v : Int) (s : State) : State :=
  { s with outq := s.outq ++ [v] }

/-! ## The pointer, the base, the status -/

/-- Move the pointer past an instruction of `n` cells (R67, R90). -/
def advance (n : Nat) (s : State) : State :=
  { s with ip := s.ip + n }

/-- `ip <- n`. -/
def setPointer (n : Nat) (s : State) : State :=
  { s with ip := n }

/-- Set the pointer to the target of a taken jump: an absolute cell address; a negative one raises `NegativeAddress` in the
jump (R122; log entry 6). -/
def jumpTo (target : Int) (s : State) : Except Cause State := do
  let n ← checkAddr target
  return setPointer n s

/-- `rb <- rb + v` (R130). -/
def addToBase (v : Int) (s : State) : State :=
  { s with rb := s.rb + v }

/-- `status <- Halted`, the pointer unchanged (R135; log entry 10). -/
def enterHalted (s : State) : State :=
  { s with status := .halted }

/-- TAKING A FAULT: `status <- Faulted(cause, info)` and nothing else (R166; log entry 8). There is no return from a fault:
only `hostReset` leaves the status (R168). -/
def takeFault (c : Cause) (s : State) : State :=
  { s with status := .faulted c }

/-- The number of a cause, for the host (R165; log entry 14). -/
def Cause.code : Cause → Nat
  | .unknownOpcode _ => 1
  | .inputStarved => 2
  | .negativeAddress _ => 3
  | .invalidMode _ _ => 4

/-! ## The frame of an instruction -/

/-- End an instruction that began in `s`: its effect where nothing was raised, else the fault taken in `s` itself, so that an
instruction that raises has had no effect at all (R13, R88, R166). -/
def complete (s : State) (r : Except Cause State) : Host.Outcome State Fault Refusal :=
  match r with
  | .ok t => .next t
  | .error c => .next (takeFault c s)

/-- Phases 1 to 3 of the step: read the cell at the pointer, decode it, and raise `UnknownOpcode` where it selects no row
(R80, R81, R161). -/
def fetchDecode (s : State) : Except Cause Instr := do
  let w ← memRead s.ip s
  match decode w with
  | .ok i => return i
  | .error (.unknownOpcode u) => .error (.unknownOpcode u)

end Sys2Proof.Machine
end

