-- ==== Sys2Proof/Machine/Operands.lean ====
section
/-! DEFINITION. The operand resolver: slots, operand words, and the addressing modes of the two roles (R82 to R89). -/

namespace Sys2Proof.Machine

/-- `slot(i) = ip + i`, the address of operand slot `i` (R82). -/
def slot (i : Nat) (s : State) : Nat :=
  s.ip + i

/-- `raw(i)`, the operand word in slot `i`. A slot address is never negative, so this read raises nothing (R82). -/
def raw (i : Nat) (s : State) : Int :=
  s.readCell (slot i s)

/-- `Val(i)`, the value of source operand `i`; an invalid mode digit raises `InvalidMode` first (R70, R80, R84). -/
def val (i : Nat) (m : Mode) (s : State) : Except Cause Int :=
  match m with
  | .positional => memRead (raw i s) s
  | .immediate => .ok (raw i s)
  | .relative => memRead (s.rb + raw i s) s
  | .invalid d => .error (.invalidMode i d)

/-- `Dst(i)`, the address destination operand `i` names; the cell is not read, a negative address is refused here, before any
effect, and an invalid mode digit raises `InvalidMode` first (R70, R80, R85, R89; log entries 9 and 25). -/
def dst (i : Nat) (m : Mode) (s : State) : Except Cause Nat :=
  match m with
  | .positional => checkAddr (raw i s)
  | .immediate => checkAddr (slot i s)
  | .relative => checkAddr (s.rb + raw i s)
  | .invalid d => .error (.invalidMode i d)

/-- The effective address `EA(i)` that serves both roles (R86). -/
def effectiveAddress (i : Nat) (m : Mode) (s : State) : Except Cause Int :=
  match m with
  | .positional => .ok (raw i s)
  | .immediate => .ok (slot i s)
  | .relative => .ok (s.rb + raw i s)
  | .invalid d => .error (.invalidMode i d)

/-- Phase 4 of the step for one operand, kept to what it raises: `Val` for a source, `Dst` for a destination (R80, R83). -/
def resolveOperand (i : Nat) (r : Role) (m : Mode) (s : State) : Except Cause Unit :=
  match r with
  | .source => (val i m s).map fun _ => ()
  | .destination => (dst i m s).map fun _ => ()

/-- Phase 4 of the step: the operands in slot order from slot `i` on, up to the first that raises (R80, R87, R167). -/
def resolveFrom (i : Nat) (ops : List (Role × Mode)) (s : State) : Except Cause Unit :=
  match ops with
  | [] => .ok ()
  | (r, m) :: rest => do
    resolveOperand i r m s
    resolveFrom (i + 1) rest s

/-- Phase 4 of the step for an instruction. -/
def resolveAll (i : Instr) (s : State) : Except Cause Unit :=
  resolveFrom 1 i.operands s

end Sys2Proof.Machine
end

