-- ==== Sys2Proof/Machine/Arithmetic.lean ====
section
/-! DEFINITION. add, mul, less-than, equals (41_arithmetic.md): two sources, one destination, four cells. -/

namespace Sys2Proof.Machine

/-- The shape the four share (R87, R88, R100 to R103): resolve `a`, `b`, `dst` in this order, store `f a b`, advance by 4. The
stored value is computed from the old contents, whatever cell `dst` names (R105). -/
def storeResult (f : Int → Int → Int) (m1 m2 m3 : Mode) (s : State) : Except Cause State := do
  let v1 ← val 1 m1 s
  let v2 ← val 2 m2 s
  let d ← dst 3 m3 s
  let t ← memWrite d (f v1 v2) s
  return advance 4 t

/-- add: the exact sum (R100, R104). -/
def execAdd (m1 m2 m3 : Mode) (s : State) : Host.Outcome State Fault Refusal :=
  complete s (storeResult (fun a b => a + b) m1 m2 m3 s)

/-- mul: the exact product (R101, R104). -/
def execMul (m1 m2 m3 : Mode) (s : State) : Host.Outcome State Fault Refusal :=
  complete s (storeResult (fun a b => a * b) m1 m2 m3 s)

/-- less-than: 1 or 0, always stored (R102). -/
def execLessThan (m1 m2 m3 : Mode) (s : State) : Host.Outcome State Fault Refusal :=
  complete s (storeResult lessThanWord m1 m2 m3 s)

/-- equals: 1 or 0, always stored (R103). -/
def execEquals (m1 m2 m3 : Mode) (s : State) : Host.Outcome State Fault Refusal :=
  complete s (storeResult equalsWord m1 m2 m3 s)

end Sys2Proof.Machine
end

