-- ==== Sys2Proof/Machine/ControlFlow.lean ====
section
/-! DEFINITION. jump-if-true and jump-if-false (43_control_flow.md). -/

namespace Sys2Proof.Machine

/-- The shape the two share: resolve the condition and the target, both of them whether or not the jump is taken (R87), then
jump to the target's VALUE or advance by 3 (R120, R121, R122). -/
def jumpWhen (taken : Int → Bool) (m1 m2 : Mode) (s : State) : Except Cause State := do
  let v1 ← val 1 m1 s
  let v2 ← val 2 m2 s
  if taken v1 then jumpTo v2 s else return advance 3 s

/-- jump-if-true (R120). -/
def execJumpIfTrue (m1 m2 : Mode) (s : State) : Host.Outcome State Fault Refusal :=
  complete s (jumpWhen takenIfTrue m1 m2 s)

/-- jump-if-false (R121). -/
def execJumpIfFalse (m1 m2 : Mode) (s : State) : Host.Outcome State Fault Refusal :=
  complete s (jumpWhen takenIfFalse m1 m2 s)

end Sys2Proof.Machine
end

