-- ==== Sys2Proof/Machine/Halt.lean ====
section
/-! DEFINITION. halt (45_halt.md). -/

namespace Sys2Proof.Machine

/-- halt: no operand is resolved, only the status changes (R135). -/
def execHalt (s : State) : Host.Outcome State Fault Refusal :=
  complete s (.ok (enterHalted s))

end Sys2Proof.Machine
end

