-- ==== Sys2Proof/Machine/InputOutput.lean ====
section
/-! DEFINITION. input and output (42_io.md), the only instructions that touch the channels. -/

namespace Sys2Proof.Machine

/-- input: the destination is resolved before the pop, so an instruction that faults consumes no item (R85, R112). -/
def execInput (m1 : Mode) (s : State) : Host.Outcome State Fault Refusal :=
  complete s do
    let d ← dst 1 m1 s
    let (v, t) ← inPop s
    let u ← memWrite d v t
    return advance 2 u

/-- output: append the source's value to the output channel (R113). -/
def execOutput (m1 : Mode) (s : State) : Host.Outcome State Fault Refusal :=
  complete s do
    let v ← val 1 m1 s
    return advance 2 (outPush v s)

end Sys2Proof.Machine
end

