-- ==== Sys2Proof/Machine/RelativeBase.lean ====
section
/-! DEFINITION. adjust-base (44_relative_base.md), the only instruction that writes the relative base. -/

namespace Sys2Proof.Machine

/-- adjust-base: the operand's value, resolved with the old base, is ADDED to the base (R130, R132). -/
def execAdjustBase (m1 : Mode) (s : State) : Host.Outcome State Fault Refusal :=
  complete s do
    let v ← val 1 m1 s
    return advance 2 (addToBase v s)

end Sys2Proof.Machine
end

