-- ==== Sys2Proof/Machine/Step.lean ====
section
/-! DEFINITION. The one step of the sequencer (R80), and the host's way to place the next instruction. -/

namespace Sys2Proof.Machine

/-- One step. It is enabled only while running (R80, R142); a word that selects no row takes `UnknownOpcode` (R161). -/
def step (s : State) : Host.Outcome State Fault Refusal :=
  match s.status with
  | .running =>
    match fetchDecode s with
    | .ok i => exec i s
    | .error c => complete s (.error c)
  | .halted => .refused .stepAfterHalt
  | .faulted c => .refused (.stepAfterFault c)

/-- `s` with the instruction word `w` in the cell at the pointer, zeros in the three operand slots after it, and the core
running, so that the very next step runs it (log entry 17). -/
def State.withFetchWord (s : State) (_nbits w : Nat) : State :=
  { ((((s.writeCell s.ip (w : Int)).writeCell (s.ip + 1) 0).writeCell (s.ip + 2) 0).writeCell (s.ip + 3) 0) with
    status := .running }

end Sys2Proof.Machine
end

