-- ==== Sys2Proof/Machine/Assembler.lean ====
section
/-! DEFINITION. The spec's own notation for instructions and data (R73, R74): lines, their cells, and how a line is written. It
binds no tool and the core knows nothing of it (log entry 14). -/

namespace Sys2Proof

/-- An operand as it is written: `n`, `#n` or `@n` (R73). -/
inductive AsmOperand where
  | positional (n : Int)
  | immediate (n : Int)
  | relative (n : Int)
deriving DecidableEq, Repr

/-- A line: an instruction with its operands in slot order, or the directive `.data` (R73, R74). -/
inductive AsmLine where
  | add (a b dst : AsmOperand)
  | mul (a b dst : AsmOperand)
  | input (dst : AsmOperand)
  | output (a : AsmOperand)
  | jumpIfTrue (a b : AsmOperand)
  | jumpIfFalse (a b : AsmOperand)
  | lessThan (a b dst : AsmOperand)
  | equals (a b dst : AsmOperand)
  | adjustBase (a : AsmOperand)
  | halt
  | data (values : List Int)
deriving DecidableEq, Repr

/-- The mode the mark of an operand stands for (R73). -/
def AsmOperand.mode : AsmOperand → Mode
  | .positional _ => .positional
  | .immediate _ => .immediate
  | .relative _ => .relative

/-- The operand word (R73). -/
def AsmOperand.word : AsmOperand → Int
  | .positional n => n
  | .immediate n => n
  | .relative n => n

/-- The operand as it is written (R73). -/
def AsmOperand.text : AsmOperand → String
  | .positional n => toString n
  | .immediate n => "#" ++ toString n
  | .relative n => "@" ++ toString n

/-- The instruction a line stands for; the directive `.data` stands for none (R73, R74). -/
def AsmLine.instr : AsmLine → Option Instr
  | .add a b d => some (.add a.mode b.mode d.mode)
  | .mul a b d => some (.mul a.mode b.mode d.mode)
  | .input d => some (.input d.mode)
  | .output a => some (.output a.mode)
  | .jumpIfTrue a b => some (.jumpIfTrue a.mode b.mode)
  | .jumpIfFalse a b => some (.jumpIfFalse a.mode b.mode)
  | .lessThan a b d => some (.lessThan a.mode b.mode d.mode)
  | .equals a b d => some (.equals a.mode b.mode d.mode)
  | .adjustBase a => some (.adjustBase a.mode)
  | .halt => some .halt
  | .data _ => none

/-- The operand words of a line in slot order, or the data of the directive (R73, R74). -/
def AsmLine.words : AsmLine → List Int
  | .add a b d => [a.word, b.word, d.word]
  | .mul a b d => [a.word, b.word, d.word]
  | .input d => [d.word]
  | .output a => [a.word]
  | .jumpIfTrue a b => [a.word, b.word]
  | .jumpIfFalse a b => [a.word, b.word]
  | .lessThan a b d => [a.word, b.word, d.word]
  | .equals a b d => [a.word, b.word, d.word]
  | .adjustBase a => [a.word]
  | .halt => []
  | .data vs => vs

/-- The cells of a line: the canonical instruction word and then the operand words, or the data alone (R73, R74). -/
def AsmLine.cells (l : AsmLine) : List Int :=
  match l.instr with
  | some i => encode i :: l.words
  | none => l.words

/-- The mnemonic of a line and its operands as written (R73). -/
def AsmLine.parts : AsmLine → String × List String
  | .add a b d => ("add", [a.text, b.text, d.text])
  | .mul a b d => ("mul", [a.text, b.text, d.text])
  | .input d => ("input", [d.text])
  | .output a => ("output", [a.text])
  | .jumpIfTrue a b => ("jump-if-true", [a.text, b.text])
  | .jumpIfFalse a b => ("jump-if-false", [a.text, b.text])
  | .lessThan a b d => ("less-than", [a.text, b.text, d.text])
  | .equals a b d => ("equals", [a.text, b.text, d.text])
  | .adjustBase a => ("adjust-base", [a.text])
  | .halt => ("halt", [])
  | .data vs => (".data", vs.map fun v => toString v)

/-- A line as it is written: the mnemonic, then the operands separated by commas (R73). -/
def AsmLine.text (l : AsmLine) : String :=
  match l.parts.2 with
  | [] => l.parts.1
  | operands => l.parts.1 ++ " " ++ String.intercalate ", " operands

/-- The cells of a program, cell 0 first (R73, R75). -/
def assemble (lines : List AsmLine) : List Int :=
  lines.flatMap AsmLine.cells

end Sys2Proof
end

