-- ==== Sys2Proof/Machine/Transactions.lean ====
section
/-! DEFINITION. The memory transactions of one step, in order, and the item it pushes, for claims about a history of them (R56,
R145). They are computed from the state the step begins in and are not state themselves (log entry 22). -/

namespace Sys2Proof.Machine

/-- One transaction on the memory ports (R150). -/
inductive Txn where
  | read (a : Nat)
  | write (a : Nat) (v : Int)
deriving DecidableEq, Repr

/-- The one read a source operand adds to the read of its slot: the cell it names, for the positional and the relative mode; a
negative address reaches no cell (R41, R56, R84). -/
def cellRead (a : Int) : List Txn :=
  if a < 0 then [] else [.read a.toNat]

/-- The reads that resolving operand `i` makes. An invalid mode digit is refused before the slot is read (R56, R164). -/
def operandReads (i : Nat) (r : Role) (m : Mode) (s : State) : List Txn :=
  match m, r with
  | .invalid _, _ => []
  | .positional, .source => .read (slot i s) :: cellRead (raw i s)
  | .relative, .source => .read (slot i s) :: cellRead (s.rb + raw i s)
  | .immediate, .source => [.read (slot i s)]
  | .positional, .destination => [.read (slot i s)]
  | .relative, .destination => [.read (slot i s)]
  | .immediate, .destination => [.read (slot i s)]

/-- The reads of phase 4 from slot `i` on; an operand that raises ends them (R56, R80). -/
def readsFrom (i : Nat) (ops : List (Role × Mode)) (s : State) : List Txn :=
  match ops with
  | [] => []
  | (r, m) :: rest =>
    operandReads i r m s ++
      match resolveOperand i r m s with
      | .ok _ => readsFrom (i + 1) rest s
      | .error _ => []

/-- The cell a three-operand instruction stores to and what it stores, where its operands resolve (R88, R100 to R103). -/
def resultStore (f : Int → Int → Int) (m1 m2 m3 : Mode) (s : State) : Option (Nat × Int) :=
  match val 1 m1 s, val 2 m2 s, dst 3 m3 s with
  | .ok v1, .ok v2, .ok d => some (d, f v1 v2)
  | _, _, _ => none

/-- The one cell an instruction stores to and what it stores, where it completes and stores at all (R56, R88). -/
def storeOf (i : Instr) (s : State) : Option (Nat × Int) :=
  match i with
  | .add m1 m2 m3 => resultStore (fun a b => a + b) m1 m2 m3 s
  | .mul m1 m2 m3 => resultStore (fun a b => a * b) m1 m2 m3 s
  | .lessThan m1 m2 m3 => resultStore lessThanWord m1 m2 m3 s
  | .equals m1 m2 m3 => resultStore equalsWord m1 m2 m3 s
  | .input m1 =>
    match dst 1 m1 s, s.inq with
    | .ok d, v :: _ => some (d, v)
    | _, _ => none
  | .output _ => none
  | .jumpIfTrue _ _ => none
  | .jumpIfFalse _ _ => none
  | .adjustBase _ => none
  | .halt => none

/-- The write that ends the transactions, if there is one. -/
def storeTxn (i : Instr) (s : State) : List Txn :=
  match storeOf i s with
  | some (a, v) => [.write a v]
  | none => []

/-- The transactions of the step a running core takes from `s`, in order; a core that is not running makes none (R56). -/
def stepTransactions (s : State) : List Txn :=
  match s.status with
  | .running =>
    .read s.ip ::
      match fetchDecode s with
      | .ok i => readsFrom 1 i.operands s ++ storeTxn i s
      | .error _ => []
  | .halted => []
  | .faulted _ => []

/-- The item an instruction pushes, where it completes and pushes at all (R113). -/
def outputOf (i : Instr) (s : State) : List Int :=
  match i with
  | .add _ _ _ => []
  | .mul _ _ _ => []
  | .input _ => []
  | .output m1 =>
    match val 1 m1 s with
    | .ok v => [v]
    | .error _ => []
  | .jumpIfTrue _ _ => []
  | .jumpIfFalse _ _ => []
  | .lessThan _ _ _ => []
  | .equals _ _ _ => []
  | .adjustBase _ => []
  | .halt => []

/-- What the step a running core takes from `s` pushes on the output channel; a core that is not running pushes nothing
(R111, R145). -/
def pushedByStep (s : State) : List Int :=
  match s.status with
  | .running =>
    match fetchDecode s with
    | .ok i => outputOf i s
    | .error _ => []
  | .halted => []
  | .faulted _ => []

end Sys2Proof.Machine
end

