-- ==== Sys2Proof/Machine/HostInterface.lean ====
section
/-! DEFINITION. What the host can do to the core and what it gets back (50_host_interface.md, 70_reset_and_hazards.md). -/

namespace Sys2Proof.Machine

/-- `Reset(P, I)`: the core constructed from a private copy of the program and the host's initial input, in any status
(R33, R141, R190; log entry 13). -/
def hostReset (program input : List Int) : State where
  mem := loadFrom 0 program
  len := program.length
  ip := Config.entryPoint
  rb := Config.relativeBaseAtReset
  status := .running
  inq := input
  outq := []

/-- `Step()` with its completion indicator, the status as it stands after the step. A request made of a core that is not
running changes nothing (R142, R147). -/
def stepRequest (s : State) : State × Status :=
  match step s with
  | .next t => (t, t.status)
  | .fault _ => (s, s.status)
  | .refused _ => (s, s.status)

/-- `Run()` cut off after `n` steps: step while the status is Running. `Run` itself has no bound (R143; log entry 21). -/
def runFor : Nat → State → State
  | 0, s => s
  | n + 1, s =>
    match s.status with
    | .running => runFor n (stepRequest s).1
    | .halted => s
    | .faulted _ => s

/-- The run from `s` is over in `t`: some number of steps leads to `t`, which is not running (R143, R148). -/
def RunEnds (s t : State) : Prop :=
  t.status ≠ .running ∧ ∃ n, runFor n s = t

/-- `PushInput(v)`: append at the tail of the input channel, in any status (R144). -/
def pushInput (v : Int) (s : State) : State :=
  { s with inq := s.inq ++ [v] }

/-- `DrainOutput(k)`: remove and return the `k` oldest items of the output channel, in any status. It is specified for `k` at
most the number of items there; a larger `k` is no host operation (R145; log entry 20). -/
def drainOutput (k : Nat) (s : State) : Option (List Int × State) :=
  if k ≤ s.outq.length then some (s.outq.take k, { s with outq := s.outq.drop k }) else none

/-- The final memory contents the host reads back, `mem[0 .. len-1]` (R22, R148). -/
def finalMemory (s : State) : List Int :=
  (List.range s.len).map s.readCell

/-- Everything the host can do between two steps, and the step request itself (R140, R146). -/
inductive HostMove where
  | reset (program input : List Int)
  | step
  | pushInput (v : Int)
  | drainOutput (k : Nat)
deriving DecidableEq, Repr

/-- The item that a move supplies on the input channel (R144). -/
def HostMove.item : HostMove → Option Int
  | .reset _ _ => none
  | .step => none
  | .pushInput v => some v
  | .drainOutput _ => none

/-- The items that the moves of a session supply, in the order they are pushed (R144, R149). -/
def suppliedItems (ms : List HostMove) : List Int :=
  ms.filterMap HostMove.item

/-- A host's session with the core: the core, and the items the host has drained in this run, oldest first. What is drained
has left the core and belongs to no step; it is kept here because it is part of the run's output (R145; log entry 27). -/
structure Session where
  core : State
  drained : List Int
deriving DecidableEq, Repr

/-- The total output of the run so far: the drained items and then those that still wait, which is every item pushed, in push
order, however it was drained (R145). -/
def Session.totalOutput (x : Session) : List Int :=
  x.drained ++ x.core.outq

/-- The session after a host move, where the move is one the host may make. A reset begins a new run, whose output is empty
(R141, R142, R144, R145; log entry 27). -/
def hostMove (m : HostMove) (x : Session) : Option Session :=
  match m with
  | .reset program input => some { core := hostReset program input, drained := [] }
  | .step => some { x with core := (stepRequest x.core).1 }
  | .pushInput v => some { x with core := Sys2Proof.Machine.pushInput v x.core }
  | .drainOutput k =>
    (Sys2Proof.Machine.drainOutput k x.core).map fun r => { core := r.2, drained := x.drained ++ r.1 }

/-- The host moves of a session in order, whole steps among them (R146). -/
def hostMoves : List HostMove → Session → Option Session
  | [], x => some x
  | m :: rest, x => (hostMove m x).bind (hostMoves rest)

/-- The items that one host move makes the core push: those of its step, where it is one. -/
def pushedByMove (m : HostMove) (x : Session) : List Int :=
  match m with
  | .reset _ _ => []
  | .step => pushedByStep x.core
  | .pushInput _ => []
  | .drainOutput _ => []

/-- Every item that the steps of a session push, in push order (R145). -/
def pushedByMoves : List HostMove → Session → List Int
  | [], _ => []
  | m :: rest, x => pushedByMove m x ++ ((hostMove m x).map (pushedByMoves rest)).getD []

/-- What the host reads back at the end of a run (R148). -/
structure ReadBack where
  /-- The total output sequence (R145). -/
  output : List Int
  /-- The final memory contents, `mem[0 .. len-1]`. -/
  memory : List Int
  /-- The unread remainder of the input channel. -/
  unread : List Int
  ip : Nat
  rb : Int
  status : Status
deriving DecidableEq, Repr

/-- What the host reads back from a session; the run is over when its `status` is not Running (R147, R148). -/
def Session.readBack (x : Session) : ReadBack where
  output := x.totalOutput
  memory := finalMemory x.core
  unread := x.core.inq
  ip := x.core.ip
  rb := x.core.rb
  status := x.core.status

/-- The core would be held under the blocking policy: its next step is an input instruction with a good destination and an
empty input channel (R153; log entry 23). -/
def inputHeld (s : State) : Bool :=
  match step s with
  | .next t => decide (t.status = .faulted .inputStarved)
  | .fault _ => false
  | .refused _ => false

/-- The step of the blocking policy, which this spec does NOT take: where the core is held no step is enabled (R153).
No part of the machine uses it (log entry 23). -/
def stepBlocking (s : State) : Option State :=
  match step s with
  | .next t => if t.status = .faulted .inputStarved then none else some t
  | .fault _ => none
  | .refused _ => none

end Sys2Proof.Machine
end

