-- ==== Sys2Proof/Safety.lean ====
section
/-! DEFINITION. The terms claims use: the invariant of the machine, how a run ended, what no instruction may change, when a step
faults and what its operands read, and the marks of the notation. -/

namespace Sys2Proof.Machine

/-- The recorded value is one the cause can have (R161, R163, R164). -/
def Cause.wf : Cause → Bool
  | .unknownOpcode w => decide (selectRow (splitWord w) = none)
  | .inputStarved => true
  | .negativeAddress a => decide (a < 0)
  | .invalidMode i m => decide (1 ≤ i ∧ i ≤ 3 ∧ 3 ≤ m ∧ m ≤ 9)

/-- A faulted status records a value its cause can have (R25, R160). -/
def Status.wf : Status → Bool
  | .running => true
  | .halted => true
  | .faulted c => c.wf

/-- The invariant of the machine: the cell array keeps its canonical form, every cell at or beyond the extent reads as 0
(R21, R32 (b)), and a faulted status records a value its cause can have (R160 to R164). That `ip` is never negative
(R32 (c)) is its type. -/
abbrev State.Inv (s : State) : Prop :=
  s.mem.wf ∧ s.mem.within s.len ∧ s.status.wf = true

/-- The run ended well: the core halted (R148). -/
def State.endedWell (s : State) : Prop :=
  s.status = .halted

/-- The run ended badly: the core took a fault (R148). -/
def State.endedBadly (s : State) : Prop :=
  ∃ c, s.status = .faulted c

/-- `t` differs from `s` in the status at most: the precise state of a fault (R166) and of a halt (R135). -/
def SameButStatus (s t : State) : Prop :=
  t.mem = s.mem ∧ t.len = s.len ∧ t.ip = s.ip ∧ t.rb = s.rb ∧ t.inq = s.inq ∧ t.outq = s.outq

/-- Every cell but `a` reads the same in `t` as in `s`, and the extent is what a write of cell `a` leaves (R43, R44). -/
def OnlyCellWritten (a : Nat) (s t : State) : Prop :=
  (∀ b, b ≠ a → t.readCell b = s.readCell b) ∧ t.len = max s.len (a + 1)

/-- An instruction of `n` cells that began in `s` ended in `t` having stored `v` in cell `d`: that cell, the extent where it had
to grow, and the pointer changed, and nothing else did (R88, R90). -/
def StoredAndAdvanced (d : Nat) (v : Int) (n : Nat) (s t : State) : Prop :=
  t.readCell d = v ∧ OnlyCellWritten d s t ∧ t.ip = s.ip + n ∧ t.rb = s.rb ∧ t.status = s.status ∧ t.inq = s.inq ∧
    t.outq = s.outq

/-- What resolving operand `i` with mode `m` can raise: its mode digit, or the negative address the mode computes (R84, R85, R163 (a) to (d), R164). -/
def OperandRaises (i : Nat) (m : Mode) (s : State) (c : Cause) : Prop :=
  (∃ d, m = .invalid d ∧ c = .invalidMode i d) ∨
  (m = .positional ∧ raw i s < 0 ∧ c = .negativeAddress (raw i s)) ∨
  (m = .relative ∧ s.rb + raw i s < 0 ∧ c = .negativeAddress (s.rb + raw i s))

/-- The step a running core takes from `s` faults with `c`: the word at the pointer selects no row; or an operand of the
instruction raises `c` and none before it raises anything; or the pop of an input instruction starves; or a taken jump has
a negative target (R161 to R164, R167). -/
def StepFaultsWith (s : State) (c : Cause) : Prop :=
  (∃ w, decode (s.readCell s.ip) = .error (.unknownOpcode w) ∧ c = .unknownOpcode w) ∨
  ∃ i, decode (s.readCell s.ip) = .ok i ∧
    ((∃ k r m, i.operands[k]? = some (r, m) ∧ OperandRaises (k + 1) m s c ∧
        ∀ j r' m' c', j < k → i.operands[j]? = some (r', m') → ¬ OperandRaises (j + 1) m' s c') ∨
      (∃ m d, i = .input m ∧ dst 1 m s = .ok d ∧ s.inq = [] ∧ c = .inputStarved) ∨
      (∃ m1 m2 v1 v2, i = .jumpIfTrue m1 m2 ∧ val 1 m1 s = .ok v1 ∧ v1 ≠ 0 ∧ val 2 m2 s = .ok v2 ∧ v2 < 0 ∧
        c = .negativeAddress v2) ∨
      (∃ m1 m2 v2, i = .jumpIfFalse m1 m2 ∧ val 1 m1 s = .ok 0 ∧ val 2 m2 s = .ok v2 ∧ v2 < 0 ∧ c = .negativeAddress v2))

/-- The addresses that resolving operand `k` reads, in order: its slot, and after it the cell that a positional or relative
source names; an immediate source and any destination add no second read (R56). -/
inductive OperandReads (s : State) (k : Nat) : Role → Mode → List Nat → Prop
  | positionalSource {n : Nat} (h : s.readCell (s.ip + k) = n) : OperandReads s k .source .positional [s.ip + k, n]
  | relativeSource {n : Nat} (h : s.rb + s.readCell (s.ip + k) = n) : OperandReads s k .source .relative [s.ip + k, n]
  | immediateSource : OperandReads s k .source .immediate [s.ip + k]
  | destination {m : Mode} (h : m.legal = true) : OperandReads s k .destination m [s.ip + k]

/-- `rs` lists, operand by operand in slot order, the addresses read for the first operands of `ops` (R56). -/
def OperandsRead (s : State) (ops : List (Role × Mode)) (rs : List (List Nat)) : Prop :=
  rs.length ≤ ops.length ∧
    ∀ k r m l, ops[k]? = some (r, m) → rs[k]? = some l → OperandReads s (k + 1) r m l

end Sys2Proof.Machine

namespace Sys2Proof

/-- The operand `o` is written with the mark of mode digit `d` and has the operand word `n`: `n` alone is positional (0), `#n`
immediate (1), `@n` relative (2) (R73). -/
def AsmOperand.Marked (o : AsmOperand) (d n : Int) : Prop :=
  (o = .positional n ∧ d = 0) ∨ (o = .immediate n ∧ d = 1) ∨ (o = .relative n ∧ d = 2)

end Sys2Proof
end

