-- ==== Sys2Proof/Certificates/Slice0/Obligations.lean ====
section
/-! DEFINITION. The statements for the provers, one definition each. Where a clause rests on one of the spec's own decisions
(92_eei_decisions.md) or on a choice of the model, the docstring names it. -/

open Sys2Proof Sys2Proof.Machine

/-! ## Encoding -/

/-- R62: the decoder takes the value `w mod 100` and the digits at 10^2, 10^3 and 10^4 of a non-negative word; the two words are
the rule's own. -/
def Obligations.DecoderTakesTheDecimalDigits : Prop :=
  (∀ w : Int, 0 ≤ w →
    (splitWord w).op = w % 100 ∧ (splitWord w).m1 = w / 100 % 10 ∧ (splitWord w).m2 = w / 1000 % 10 ∧
      (splitWord w).m3 = w / 10000 % 10) ∧
  splitWord 1101 = ⟨1, 1, 1, 0⟩ ∧ (splitWord 1002).m2 = 1

/-- R68: the complete opcode map. For a non-negative word each of the ten opcodes selects its row, with the modes of the
operands that row has, in the roles and with the length the map gives; no other opcode selects a row. -/
def Obligations.OpcodeMapIsTheTable : Prop :=
  (∀ w : Int, 0 ≤ w →
    (w % 100 = 1 → decode w = .ok (.add (Mode.ofDigit (w / 100 % 10)) (Mode.ofDigit (w / 1000 % 10)) (Mode.ofDigit (w / 10000 % 10)))) ∧
    (w % 100 = 2 → decode w = .ok (.mul (Mode.ofDigit (w / 100 % 10)) (Mode.ofDigit (w / 1000 % 10)) (Mode.ofDigit (w / 10000 % 10)))) ∧
    (w % 100 = 3 → decode w = .ok (.input (Mode.ofDigit (w / 100 % 10)))) ∧
    (w % 100 = 4 → decode w = .ok (.output (Mode.ofDigit (w / 100 % 10)))) ∧
    (w % 100 = 5 → decode w = .ok (.jumpIfTrue (Mode.ofDigit (w / 100 % 10)) (Mode.ofDigit (w / 1000 % 10)))) ∧
    (w % 100 = 6 → decode w = .ok (.jumpIfFalse (Mode.ofDigit (w / 100 % 10)) (Mode.ofDigit (w / 1000 % 10)))) ∧
    (w % 100 = 7 → decode w = .ok (.lessThan (Mode.ofDigit (w / 100 % 10)) (Mode.ofDigit (w / 1000 % 10)) (Mode.ofDigit (w / 10000 % 10)))) ∧
    (w % 100 = 8 → decode w = .ok (.equals (Mode.ofDigit (w / 100 % 10)) (Mode.ofDigit (w / 1000 % 10)) (Mode.ofDigit (w / 10000 % 10)))) ∧
    (w % 100 = 9 → decode w = .ok (.adjustBase (Mode.ofDigit (w / 100 % 10)))) ∧
    (w % 100 = 99 → decode w = .ok .halt) ∧
    (w % 100 ∉ ([1, 2, 3, 4, 5, 6, 7, 8, 9, 99] : List Int) → decode w = .error (.unknownOpcode w))) ∧
  ∀ a b c : Mode,
    (Instr.add a b c).operands = [(.source, a), (.source, b), (.destination, c)] ∧ (Instr.add a b c).length = 4 ∧
    (Instr.mul a b c).operands = [(.source, a), (.source, b), (.destination, c)] ∧ (Instr.mul a b c).length = 4 ∧
    (Instr.lessThan a b c).operands = [(.source, a), (.source, b), (.destination, c)] ∧ (Instr.lessThan a b c).length = 4 ∧
    (Instr.equals a b c).operands = [(.source, a), (.source, b), (.destination, c)] ∧ (Instr.equals a b c).length = 4 ∧
    (Instr.jumpIfTrue a b).operands = [(.source, a), (.source, b)] ∧ (Instr.jumpIfTrue a b).length = 3 ∧
    (Instr.jumpIfFalse a b).operands = [(.source, a), (.source, b)] ∧ (Instr.jumpIfFalse a b).length = 3 ∧
    (Instr.input a).operands = [(.destination, a)] ∧ (Instr.input a).length = 2 ∧
    (Instr.output a).operands = [(.source, a)] ∧ (Instr.output a).length = 2 ∧
    (Instr.adjustBase a).operands = [(.source, a)] ∧ (Instr.adjustBase a).length = 2 ∧
    Instr.halt.operands = [] ∧ Instr.halt.length = 1

/-- Digits that take no part in decoding: those at 10^5 and above, and the mode digits of operands the instruction lacks. The
first is derived by the spec (30_encoding.md section 2), the second is its decision D4 (log entry 5). -/
def Obligations.UnusedDigitsAreIgnored : Prop :=
  ∀ (w u : Int) (i : Instr), 0 ≤ w → 0 ≤ u → decode w = .ok i →
    w % (100 * 10 ^ i.operands.length) = u % (100 * 10 ^ i.operands.length) → decode u = .ok i

/-- Decoding the canonical word of a well-formed instruction gives it back: no mode digit, invalid ones among them, is
dropped. -/
def Obligations.DecodeOfEncode : Prop :=
  ∀ i : Instr, i.wf = true → decode (encode i) = .ok i

/-- The other direction: a word that decodes is not negative, the instruction is well-formed, and its canonical word is the
word's own digits at the positions the instruction uses. -/
def Obligations.EncodeOfDecode : Prop :=
  ∀ (w : Int) (i : Instr), decode w = .ok i → 0 ≤ w ∧ i.wf = true ∧ encode i = w % (100 * 10 ^ i.operands.length)

/-- Words written out digit by digit from the encoding of each family (30_encoding.md section 1, 95_test_vectors.md 2.1). -/
def Obligations.WrittenOutWordsDecode : Prop :=
  decode 1002 = .ok (.mul .positional .immediate .positional) ∧
  decode 21107 = .ok (.lessThan .immediate .immediate .relative) ∧
  decode 20203 = .ok (.input .relative) ∧
  decode 204 = .ok (.output .relative) ∧
  decode 1006 = .ok (.jumpIfFalse .positional .immediate) ∧
  decode 109 = .ok (.adjustBase .immediate) ∧
  decode 99999 = .ok .halt ∧
  decode 304 = .ok (.output (.invalid 3)) ∧
  decode 12345 = .error (.unknownOpcode 12345) ∧
  decode (-99) = .error (.unknownOpcode (-99))

/-- The cells of every line of the spec's notation (R73, R74; the notation is the spec's decision D13, log entry 14): an
instruction's cells are the opcode with the digits of its operands' marks, and then its operand words in slot order; `.data`
places its values alone; a program's cells are its lines' in order. The first cell of an instruction's line decodes to
that instruction with those modes, and the line has as many cells as the instruction is long. -/
def Obligations.AssembledLineDecodes : Prop :=
  (∀ (a b c : AsmOperand) (d1 n1 d2 n2 d3 n3 : Int), a.Marked d1 n1 → b.Marked d2 n2 → c.Marked d3 n3 →
    (AsmLine.add a b c).cells = [1 + 100 * d1 + 1000 * d2 + 10000 * d3, n1, n2, n3] ∧
    (AsmLine.mul a b c).cells = [2 + 100 * d1 + 1000 * d2 + 10000 * d3, n1, n2, n3] ∧
    (AsmLine.input a).cells = [3 + 100 * d1, n1] ∧
    (AsmLine.output a).cells = [4 + 100 * d1, n1] ∧
    (AsmLine.jumpIfTrue a b).cells = [5 + 100 * d1 + 1000 * d2, n1, n2] ∧
    (AsmLine.jumpIfFalse a b).cells = [6 + 100 * d1 + 1000 * d2, n1, n2] ∧
    (AsmLine.lessThan a b c).cells = [7 + 100 * d1 + 1000 * d2 + 10000 * d3, n1, n2, n3] ∧
    (AsmLine.equals a b c).cells = [8 + 100 * d1 + 1000 * d2 + 10000 * d3, n1, n2, n3] ∧
    (AsmLine.adjustBase a).cells = [9 + 100 * d1, n1] ∧
    decode (1 + 100 * d1 + 1000 * d2 + 10000 * d3) = .ok (.add (.ofDigit d1) (.ofDigit d2) (.ofDigit d3)) ∧
    decode (2 + 100 * d1 + 1000 * d2 + 10000 * d3) = .ok (.mul (.ofDigit d1) (.ofDigit d2) (.ofDigit d3)) ∧
    decode (3 + 100 * d1) = .ok (.input (.ofDigit d1)) ∧
    decode (4 + 100 * d1) = .ok (.output (.ofDigit d1)) ∧
    decode (5 + 100 * d1 + 1000 * d2) = .ok (.jumpIfTrue (.ofDigit d1) (.ofDigit d2)) ∧
    decode (6 + 100 * d1 + 1000 * d2) = .ok (.jumpIfFalse (.ofDigit d1) (.ofDigit d2)) ∧
    decode (7 + 100 * d1 + 1000 * d2 + 10000 * d3) = .ok (.lessThan (.ofDigit d1) (.ofDigit d2) (.ofDigit d3)) ∧
    decode (8 + 100 * d1 + 1000 * d2 + 10000 * d3) = .ok (.equals (.ofDigit d1) (.ofDigit d2) (.ofDigit d3)) ∧
    decode (9 + 100 * d1) = .ok (.adjustBase (.ofDigit d1))) ∧
  (AsmLine.halt.cells = [99] ∧ decode 99 = .ok .halt) ∧
  (∀ a : AsmOperand, ∃ d n, a.Marked d n) ∧
  (∀ vs : List Int, (AsmLine.data vs).cells = vs) ∧
  assemble [] = [] ∧ (∀ (l : AsmLine) (ls : List AsmLine), assemble (l :: ls) = l.cells ++ assemble ls) ∧
  ∀ (l : AsmLine) (i : Instr), l.instr = some i →
    (∃ words, l.cells = encode i :: words) ∧ l.cells.length = i.length ∧ decode (encode i) = .ok i

/-! ## Memory -/

/-- R42: `MemRead` raises `NegativeAddress` below 0, gives the stored integer inside the extent and 0 at or beyond it; it
answers no state, so it changes none. -/
def Obligations.ReadGivesTheCellOrZero : Prop :=
  ∀ (a : Int) (s : State),
    (a < 0 → memRead a s = .error (.negativeAddress a)) ∧
    (0 ≤ a → a < s.len → memRead a s = .ok (s.mem.lookup a.toNat)) ∧
    (s.len ≤ a → memRead a s = .ok 0)

/-- R43: `MemWrite` raises `NegativeAddress` below 0; else it stores the integer, grows the extent to the address plus one when
the address lies at or beyond it, and changes nothing else. -/
def Obligations.WriteStoresTheCell : Prop :=
  ∀ (s : State) (a v : Int), s.Inv →
    (a < 0 → memWrite a v s = .error (.negativeAddress a)) ∧
    (∀ n : Nat, a = n → ∃ t, memWrite a v s = .ok t ∧ t.readCell n = v ∧ (∀ b, b ≠ n → t.readCell b = s.readCell b) ∧
      (s.len ≤ n → t.len = n + 1) ∧ (n < s.len → t.len = s.len) ∧
      t.ip = s.ip ∧ t.rb = s.rb ∧ t.status = s.status ∧ t.inq = s.inq ∧ t.outq = s.outq)

/-- R44, the memory growth law: a write at or beyond the extent L leaves the length at the address plus one, zeros between L and
the address, the integer at the address, and zeros at every index from the new length on; a write below L leaves the length. -/
def Obligations.MemoryGrowthLaw : Prop :=
  ∀ (s : State) (a : Nat) (v : Int), s.Inv →
    (s.len ≤ a →
      (s.writeCell a v).len = a + 1 ∧ (∀ b, s.len ≤ b → b < a → (s.writeCell a v).readCell b = 0) ∧
      (s.writeCell a v).readCell a = v ∧ (∀ b, (s.writeCell a v).len ≤ b → (s.writeCell a v).readCell b = 0) ∧
      finalMemory (s.writeCell a v) = finalMemory s ++ List.replicate (a - s.len) 0 ++ [v]) ∧
    (a < s.len → (s.writeCell a v).len = s.len)

/-! ## Operand resolution -/

/-- R84: the value of a source operand in each of the three modes. -/
def Obligations.SourceOperandValue : Prop :=
  ∀ (i : Nat) (s : State),
    (raw i s < 0 → val i .positional s = .error (.negativeAddress (raw i s))) ∧
    (∀ n : Nat, raw i s = n → val i .positional s = .ok (s.readCell n)) ∧
    val i .immediate s = .ok (raw i s) ∧
    (s.rb + raw i s < 0 → val i .relative s = .error (.negativeAddress (s.rb + raw i s))) ∧
    (∀ n : Nat, s.rb + raw i s = n → val i .relative s = .ok (s.readCell n)) ∧
    (∀ n : Nat, s.len ≤ n → s.readCell n = 0)

/-- The address a destination operand names in each of the three modes, and that a negative one is refused at resolution
(40_sequencer_and_operands.md section 3; the place of the check is decision D8, log entry 9). -/
def Obligations.DestinationOperandAddress : Prop :=
  ∀ (i : Nat) (s : State),
    (raw i s < 0 → dst i .positional s = .error (.negativeAddress (raw i s))) ∧
    (∀ n : Nat, raw i s = n → dst i .positional s = .ok n) ∧
    dst i .immediate s = .ok (s.ip + i) ∧
    (s.rb + raw i s < 0 → dst i .relative s = .error (.negativeAddress (s.rb + raw i s))) ∧
    (∀ n : Nat, s.rb + raw i s = n → dst i .relative s = .ok n)

/-- One effective address serves both roles: in every mode, an invalid one included, a source reads the cell that a
destination of the same slot and mode would name, and raises what it would raise (derived by the spec, section 3). -/
def Obligations.OneEffectiveAddressServesBothRoles : Prop :=
  ∀ (i : Nat) (m : Mode) (s : State),
    val i m s = (dst i m s).map s.readCell ∧ dst i m s = (effectiveAddress i m s).bind checkAddr

/-- R89: with immediate mode on a destination the result is written into the operand slot itself, cell `ip + 3` of the
three-operand instructions and cell `ip + 1` of input; the address is never negative. -/
def Obligations.ImmediateDestinationWritesItsSlot : Prop :=
  ∀ s : State, s.Inv →
    (∀ i, dst i .immediate s = .ok (s.ip + i)) ∧
    (∀ m1 m2 v1 v2, val 1 m1 s = .ok v1 → val 2 m2 s = .ok v2 →
      (∃ t, exec (.add m1 m2 .immediate) s = .next t ∧ t.readCell (s.ip + 3) = v1 + v2) ∧
      (∃ t, exec (.mul m1 m2 .immediate) s = .next t ∧ t.readCell (s.ip + 3) = v1 * v2) ∧
      (∃ t, exec (.lessThan m1 m2 .immediate) s = .next t ∧ t.readCell (s.ip + 3) = if v1 < v2 then 1 else 0) ∧
      (∃ t, exec (.equals m1 m2 .immediate) s = .next t ∧ t.readCell (s.ip + 3) = if v1 = v2 then 1 else 0)) ∧
    (∀ v rest, s.inq = v :: rest → ∃ t, exec (.input .immediate) s = .next t ∧ t.readCell (s.ip + 1) = v)

/-! ## The instructions: result, frame and faults

The state a fault leaves, everything but the status as the instruction found it, is the spec's decision D7 (log entry 8); the
statements below say it in full wherever an instruction faults. -/

/-- R100: add. -/
def Obligations.AddStoresTheSum : Prop :=
  (∀ w : Int, 0 ≤ w → w % 100 = 1 → ∃ a b c, decode w = .ok (.add a b c) ∧
    a.digit = w / 100 % 10 ∧ b.digit = w / 1000 % 10 ∧ c.digit = w / 10000 % 10) ∧
  ∀ (m1 m2 m3 : Mode) (s : State), s.Inv →
    (∀ v1 v2 d, val 1 m1 s = .ok v1 → val 2 m2 s = .ok v2 → dst 3 m3 s = .ok d →
      ∃ t, exec (.add m1 m2 m3) s = .next t ∧ StoredAndAdvanced d (v1 + v2) 4 s t) ∧
    (∀ c, OperandRaises 1 m1 s c → exec (.add m1 m2 m3) s = .next { s with status := .faulted c }) ∧
    (∀ v1 c, val 1 m1 s = .ok v1 → OperandRaises 2 m2 s c → exec (.add m1 m2 m3) s = .next { s with status := .faulted c }) ∧
    (∀ v1 v2 c, val 1 m1 s = .ok v1 → val 2 m2 s = .ok v2 → OperandRaises 3 m3 s c →
      exec (.add m1 m2 m3) s = .next { s with status := .faulted c })

/-- R101: mul. -/
def Obligations.MulStoresTheProduct : Prop :=
  (∀ w : Int, 0 ≤ w → w % 100 = 2 → ∃ a b c, decode w = .ok (.mul a b c) ∧
    a.digit = w / 100 % 10 ∧ b.digit = w / 1000 % 10 ∧ c.digit = w / 10000 % 10) ∧
  ∀ (m1 m2 m3 : Mode) (s : State), s.Inv →
    (∀ v1 v2 d, val 1 m1 s = .ok v1 → val 2 m2 s = .ok v2 → dst 3 m3 s = .ok d →
      ∃ t, exec (.mul m1 m2 m3) s = .next t ∧ StoredAndAdvanced d (v1 * v2) 4 s t) ∧
    (∀ c, OperandRaises 1 m1 s c → exec (.mul m1 m2 m3) s = .next { s with status := .faulted c }) ∧
    (∀ v1 c, val 1 m1 s = .ok v1 → OperandRaises 2 m2 s c → exec (.mul m1 m2 m3) s = .next { s with status := .faulted c }) ∧
    (∀ v1 v2 c, val 1 m1 s = .ok v1 → val 2 m2 s = .ok v2 → OperandRaises 3 m3 s c →
      exec (.mul m1 m2 m3) s = .next { s with status := .faulted c })

/-- R102: less-than. -/
def Obligations.LessThanStoresOneOrZero : Prop :=
  (∀ w : Int, 0 ≤ w → w % 100 = 7 → ∃ a b c, decode w = .ok (.lessThan a b c) ∧
    a.digit = w / 100 % 10 ∧ b.digit = w / 1000 % 10 ∧ c.digit = w / 10000 % 10) ∧
  ∀ (m1 m2 m3 : Mode) (s : State), s.Inv →
    (∀ v1 v2 d, val 1 m1 s = .ok v1 → val 2 m2 s = .ok v2 → dst 3 m3 s = .ok d →
      ∃ t, exec (.lessThan m1 m2 m3) s = .next t ∧ StoredAndAdvanced d (if v1 < v2 then 1 else 0) 4 s t) ∧
    (∀ c, OperandRaises 1 m1 s c → exec (.lessThan m1 m2 m3) s = .next { s with status := .faulted c }) ∧
    (∀ v1 c, val 1 m1 s = .ok v1 → OperandRaises 2 m2 s c →
      exec (.lessThan m1 m2 m3) s = .next { s with status := .faulted c }) ∧
    (∀ v1 v2 c, val 1 m1 s = .ok v1 → val 2 m2 s = .ok v2 → OperandRaises 3 m3 s c →
      exec (.lessThan m1 m2 m3) s = .next { s with status := .faulted c })

/-- R103: equals. -/
def Obligations.EqualsStoresOneOrZero : Prop :=
  (∀ w : Int, 0 ≤ w → w % 100 = 8 → ∃ a b c, decode w = .ok (.equals a b c) ∧
    a.digit = w / 100 % 10 ∧ b.digit = w / 1000 % 10 ∧ c.digit = w / 10000 % 10) ∧
  ∀ (m1 m2 m3 : Mode) (s : State), s.Inv →
    (∀ v1 v2 d, val 1 m1 s = .ok v1 → val 2 m2 s = .ok v2 → dst 3 m3 s = .ok d →
      ∃ t, exec (.equals m1 m2 m3) s = .next t ∧ StoredAndAdvanced d (if v1 = v2 then 1 else 0) 4 s t) ∧
    (∀ c, OperandRaises 1 m1 s c → exec (.equals m1 m2 m3) s = .next { s with status := .faulted c }) ∧
    (∀ v1 c, val 1 m1 s = .ok v1 → OperandRaises 2 m2 s c →
      exec (.equals m1 m2 m3) s = .next { s with status := .faulted c }) ∧
    (∀ v1 v2 c, val 1 m1 s = .ok v1 → val 2 m2 s = .ok v2 → OperandRaises 3 m3 s c →
      exec (.equals m1 m2 m3) s = .next { s with status := .faulted c })

/-- R112: input. The empty channel's fault is the spec's decision D6 (log entry 7). -/
def Obligations.InputStoresTheHeadItem : Prop :=
  (∀ w : Int, 0 ≤ w → w % 100 = 3 → ∃ a, decode w = .ok (.input a) ∧ a.digit = w / 100 % 10) ∧
  ∀ (m1 : Mode) (s : State), s.Inv →
    (∀ d v rest, dst 1 m1 s = .ok d → s.inq = v :: rest →
      ∃ t, exec (.input m1) s = .next t ∧ t.readCell d = v ∧ OnlyCellWritten d s t ∧ t.ip = s.ip + 2 ∧ t.inq = rest ∧
        t.rb = s.rb ∧ t.status = s.status ∧ t.outq = s.outq) ∧
    (∀ c, OperandRaises 1 m1 s c → exec (.input m1) s = .next { s with status := .faulted c }) ∧
    (∀ d, dst 1 m1 s = .ok d → s.inq = [] → exec (.input m1) s = .next { s with status := .faulted .inputStarved })

/-- R113: output. -/
def Obligations.OutputAppendsTheValue : Prop :=
  (∀ w : Int, 0 ≤ w → w % 100 = 4 → ∃ a, decode w = .ok (.output a) ∧ a.digit = w / 100 % 10) ∧
  ∀ (m1 : Mode) (s : State),
    (∀ v, val 1 m1 s = .ok v →
      exec (.output m1) s = .next { s with outq := s.outq ++ [v], ip := s.ip + 2 }) ∧
    (∀ c, OperandRaises 1 m1 s c → exec (.output m1) s = .next { s with status := .faulted c })

/-- R120: jump-if-true. -/
def Obligations.JumpIfTrueTakesNonZero : Prop :=
  (∀ w : Int, 0 ≤ w → w % 100 = 5 → ∃ a b, decode w = .ok (.jumpIfTrue a b) ∧
    a.digit = w / 100 % 10 ∧ b.digit = w / 1000 % 10) ∧
  ∀ (m1 m2 : Mode) (s : State),
    (∀ v1 (n : Nat), val 1 m1 s = .ok v1 → val 2 m2 s = .ok n → v1 ≠ 0 →
      exec (.jumpIfTrue m1 m2) s = .next { s with ip := n }) ∧
    (∀ v1 v2, val 1 m1 s = .ok v1 → val 2 m2 s = .ok v2 → v1 = 0 →
      exec (.jumpIfTrue m1 m2) s = .next { s with ip := s.ip + 3 }) ∧
    (∀ v1 v2, val 1 m1 s = .ok v1 → val 2 m2 s = .ok v2 → v1 ≠ 0 → v2 < 0 →
      exec (.jumpIfTrue m1 m2) s = .next { s with status := .faulted (.negativeAddress v2) }) ∧
    (∀ c, OperandRaises 1 m1 s c → exec (.jumpIfTrue m1 m2) s = .next { s with status := .faulted c }) ∧
    (∀ v1 c, val 1 m1 s = .ok v1 → OperandRaises 2 m2 s c →
      exec (.jumpIfTrue m1 m2) s = .next { s with status := .faulted c })

/-- R121: jump-if-false. -/
def Obligations.JumpIfFalseTakesZero : Prop :=
  (∀ w : Int, 0 ≤ w → w % 100 = 6 → ∃ a b, decode w = .ok (.jumpIfFalse a b) ∧
    a.digit = w / 100 % 10 ∧ b.digit = w / 1000 % 10) ∧
  ∀ (m1 m2 : Mode) (s : State),
    (∀ v1 (n : Nat), val 1 m1 s = .ok v1 → val 2 m2 s = .ok n → v1 = 0 →
      exec (.jumpIfFalse m1 m2) s = .next { s with ip := n }) ∧
    (∀ v1 v2, val 1 m1 s = .ok v1 → val 2 m2 s = .ok v2 → v1 ≠ 0 →
      exec (.jumpIfFalse m1 m2) s = .next { s with ip := s.ip + 3 }) ∧
    (∀ v1 v2, val 1 m1 s = .ok v1 → val 2 m2 s = .ok v2 → v1 = 0 → v2 < 0 →
      exec (.jumpIfFalse m1 m2) s = .next { s with status := .faulted (.negativeAddress v2) }) ∧
    (∀ c, OperandRaises 1 m1 s c → exec (.jumpIfFalse m1 m2) s = .next { s with status := .faulted c }) ∧
    (∀ v1 c, val 1 m1 s = .ok v1 → OperandRaises 2 m2 s c →
      exec (.jumpIfFalse m1 m2) s = .next { s with status := .faulted c })

/-- R130: adjust-base. -/
def Obligations.AdjustBaseAddsTheValue : Prop :=
  (∀ w : Int, 0 ≤ w → w % 100 = 9 → ∃ a, decode w = .ok (.adjustBase a) ∧ a.digit = w / 100 % 10) ∧
  ∀ (m1 : Mode) (s : State),
    (∀ v, val 1 m1 s = .ok v → exec (.adjustBase m1) s = .next { s with rb := s.rb + v, ip := s.ip + 2 }) ∧
    (∀ c, OperandRaises 1 m1 s c → exec (.adjustBase m1) s = .next { s with status := .faulted c })

/-- R132: the relative-base scenario, for each form of adjust-base, and where a relative operand then resolves. -/
def Obligations.RelativeBaseScenario : Prop :=
  ∀ s : State,
    (∃ t, exec (.adjustBase .immediate) s = .next t ∧ t.rb = s.rb + raw 1 s) ∧
    (∀ k : Nat, raw 1 s = k → ∃ t, exec (.adjustBase .positional) s = .next t ∧ t.rb = s.rb + s.readCell k) ∧
    (∀ k : Nat, s.rb + raw 1 s = k → ∃ t, exec (.adjustBase .relative) s = .next t ∧ t.rb = s.rb + s.readCell k) ∧
    (∀ m t, exec (.adjustBase m) s = .next t → ∀ (i a : Nat), t.rb + raw i t = a →
      val i .relative t = .ok (t.readCell a) ∧ dst i .relative t = .ok a)

/-- halt changes the status and nothing else, from any state and whatever the mode digits of its word; that `ip` stays is the
spec's decision D9 (log entry 10). -/
def Obligations.HaltChangesOnlyTheStatus : Prop :=
  (∀ w : Int, 0 ≤ w → w % 100 = 99 → decode w = .ok .halt) ∧
  ∀ s : State, exec .halt s = .next { s with status := .halted }

/-! ## The step -/

/-- When the word at the pointer of a running core decodes to an instruction, the step is `exec` of that instruction in that
state, with nothing around it: the meanings move the pointer themselves. The host's placed word is run so. -/
def Obligations.StepRunsTheDecodedInstruction : Prop :=
  (∀ (s : State) (i : Instr), s.status = .running → decode (s.readCell s.ip) = .ok i → step s = exec i s) ∧
  (∀ (s : State) (n w : Nat) (i : Instr), s.Inv → decodeTableWord n w = some i →
    step (s.withFetchWord n w) = exec i (s.withFetchWord n w))

/-- A word that selects no row, 0 and every negative word among them, takes `UnknownOpcode` with the whole word and changes
nothing else; so does running past the extent, where the word is 0. Rests on the spec's decisions D3 and D7 (log entries
3 and 8). -/
def Obligations.UnknownOpcodeIsTaken : Prop :=
  (∀ s : State, s.status = .running →
    (s.readCell s.ip < 0 ∨ s.readCell s.ip % 100 ∉ ([1, 2, 3, 4, 5, 6, 7, 8, 9, 99] : List Int)) →
      step s = .next { s with status := .faulted (.unknownOpcode (s.readCell s.ip)) }) ∧
  (∀ s : State, s.status = .running → s.len ≤ s.ip → step s = .next { s with status := .faulted (.unknownOpcode 0) })

/-- No step is enabled in a core that is not running: the request is refused and the host finds the state and the status as
they were (decision D10, log entry 11). -/
def Obligations.StoppedCoreRefusesTheStep : Prop :=
  (∀ s : State, s.status = .halted → step s = .refused .stepAfterHalt ∧ stepRequest s = (s, .halted)) ∧
  (∀ (s : State) (c : Cause), s.status = .faulted c →
    step s = .refused (.stepAfterFault c) ∧ stepRequest s = (s, .faulted c))

/-- Every step of a running core answers a next state: it completes or takes a fault, and the core never hangs inside a step
(70_reset_and_hazards.md section 4). -/
def Obligations.RunningCoreAlwaysSteps : Prop :=
  (∀ s : State, s.status = .running → ∃ t, step s = .next t ∧ stepRequest s = (t, t.status)) ∧
  ∀ (i : Instr) (s : State), ∃ t, exec i s = .next t

/-- The transitions of the status are exactly these: a step leaves Running for Halted when the instruction is halt and only
then; for Faulted(c) when the word at the pointer selects no row, an operand raises, the pop starves or a taken jump's
target is negative, with the first of these as the cause, and only then; and stays Running when neither happens
(10_state.md section 1; Faulted is decision D7, log entry 8; which raise is first is decision D8, log entry 9). -/
def Obligations.StatusTransitions : Prop :=
  ∀ s t : State, step s = .next t →
    s.status = .running ∧ (t.status = .halted ↔ decode (s.readCell s.ip) = .ok .halt) ∧
      (∀ c, t.status = .faulted c ↔ StepFaultsWith s c) ∧
      (t.status = .running ↔ decode (s.readCell s.ip) ≠ .ok .halt ∧ ∀ c, ¬ StepFaultsWith s c)

/-- R67: the length of an instruction is a function of the opcode alone and is the pointer's advance; a jump that is taken goes
to its target instead, and halt has no advance. -/
def Obligations.LengthIsThePointerAdvance : Prop :=
  (∀ (w : Int) (i : Instr), decode w = .ok i →
    (w % 100 ∈ ([1, 2, 7, 8] : List Int) → i.length = 4) ∧ (w % 100 ∈ ([5, 6] : List Int) → i.length = 3) ∧
    (w % 100 ∈ ([3, 4, 9] : List Int) → i.length = 2) ∧ (w % 100 = 99 → i.length = 1)) ∧
  ∀ (s t : State) (i : Instr), decode (s.readCell s.ip) = .ok i → step s = .next t → t.status = .running →
    t.ip = s.ip + i.length ∨
      (∃ m1 m2 v1, i = .jumpIfTrue m1 m2 ∧ val 1 m1 s = .ok v1 ∧ v1 ≠ 0 ∧ val 2 m2 s = .ok t.ip) ∨
      (∃ m1 m2, i = .jumpIfFalse m1 m2 ∧ val 1 m1 s = .ok 0 ∧ val 2 m2 s = .ok t.ip)

/-- The one cell a step can change is the one the instruction's own operands name as its store, and it holds the value stored;
an instruction that stores nothing, and a step that faults, changes no cell. -/
def Obligations.OnlyTheNamedCellChanges : Prop :=
  ∀ (i : Instr) (s t : State), s.Inv → exec i s = .next t →
    (∀ a v, storeOf i s = some (a, v) → t.readCell a = v ∧ t.len = max s.len (a + 1)) ∧
    (∀ a, (∀ v, storeOf i s ≠ some (a, v)) → t.readCell a = s.readCell a) ∧
    (storeOf i s = none → t.mem = s.mem ∧ t.len = s.len)

/-- A store is seen by the very next fetch: where a step stores in the cell its pointer then addresses, the next step runs
what was stored (20_memory.md section 5). -/
def Obligations.NextFetchSeesTheStore : Prop :=
  ∀ (s t : State) (i j : Instr) (v : Int), s.Inv → decode (s.readCell s.ip) = .ok i → step s = .next t →
    t.status = .running → storeOf i s = some (t.ip, v) → decode v = .ok j → step t = exec j t

/-! ## Faults -/

/-- Faults are precise: the state a faulting step answers is the state it began in with the status alone changed, and the
pointer still addresses the faulting instruction (decision D7, log entry 8). -/
def Obligations.FaultsArePrecise : Prop :=
  ∀ (s t : State) (c : Cause), step s = .next t → t.status = .faulted c → t = { s with status := .faulted c }

/-- Of the faults a decoded instruction meets, the operands' come first, in operand order, before the pop of the channel or the
target of a jump: if operand `k` raises `c` and no earlier operand raises, the instruction faults with `c` (decision D8, log
entry 9). An invalid mode digit leaves its operand nothing else to raise. -/
def Obligations.FirstRaiseIsReported : Prop :=
  ∀ (i : Instr) (s : State) (k : Nat) (r : Role) (m : Mode) (c : Cause), i.operands[k]? = some (r, m) →
    OperandRaises (k + 1) m s c →
    (∀ j r' m' c', j < k → i.operands[j]? = some (r', m') → ¬ OperandRaises (j + 1) m' s c') →
      exec i s = .next { s with status := .faulted c }

/-- Only an input instruction starves, with a good destination and an empty channel (decision D6, log entry 7). -/
def Obligations.OnlyInputStarves : Prop :=
  ∀ s t : State, step s = .next t → t.status = .faulted .inputStarved →
    s.inq = [] ∧ ∃ m d, decode (s.readCell s.ip) = .ok (.input m) ∧ dst 1 m s = .ok d

/-- The places `NegativeAddress` can arise are these: a positional operand whose word is negative, a relative operand whose sum
with the base is negative, and a taken jump whose target is negative (decision D5, log entry 6). -/
def Obligations.NegativeAddressArisesOnlyFrom : Prop :=
  ∀ (s t : State) (a : Int), step s = .next t → t.status = .faulted (.negativeAddress a) →
    a < 0 ∧ ∃ i, decode (s.readCell s.ip) = .ok i ∧
      ((∃ k r, i.operands[k]? = some (r, .positional) ∧ a = raw (k + 1) s) ∨
        (∃ k r, i.operands[k]? = some (r, .relative) ∧ a = s.rb + raw (k + 1) s) ∨
        (∃ m1 m2 v1, i = .jumpIfTrue m1 m2 ∧ val 1 m1 s = .ok v1 ∧ v1 ≠ 0 ∧ val 2 m2 s = .ok a) ∨
        (∃ m1 m2, i = .jumpIfFalse m1 m2 ∧ val 1 m1 s = .ok 0 ∧ val 2 m2 s = .ok a))

/-- `InvalidMode` arises only for an operand the instruction has, records the operand and its digit, and the digit is one of 3
to 9 (decision D4, log entry 4). -/
def Obligations.InvalidModeArisesOnlyFrom : Prop :=
  ∀ (s t : State) (k : Nat) (d : Int), step s = .next t → t.status = .faulted (.invalidMode k d) →
    3 ≤ d ∧ d ≤ 9 ∧ ∃ i r j, decode (s.readCell s.ip) = .ok i ∧ k = j + 1 ∧ i.operands[j]? = some (r, .invalid d)

/-! ## Reset and the host -/

/-- What `Reset(P, I)` leaves in every element of state, from any state, and that a run begins with nothing output. `ip = 0` is
derived by the spec (N3, log entry 24), the empty output channel and the given input are its decision D12 (log entry 13),
that `State.reset` is the reset with the empty program and input is the model's choice (log entry 16), and that the total
output is counted from the reset is the model's reading (log entry 27). -/
def Obligations.ResetLeaves : Prop :=
  (∀ (p i : List Int) (x : Session), hostMove (.reset p i) x = some { core := hostReset p i, drained := [] } ∧
    (∀ a, a < p.length → p[a]? = some ((hostReset p i).readCell a)) ∧ (∀ a, p.length ≤ a → (hostReset p i).readCell a = 0) ∧
    (hostReset p i).len = p.length ∧ finalMemory (hostReset p i) = p ∧ (hostReset p i).ip = 0 ∧ (hostReset p i).rb = 0 ∧
    (hostReset p i).status = .running ∧ (hostReset p i).inq = i ∧ (hostReset p i).outq = []) ∧
  State.reset = hostReset [] []

/-- R24: the relative base is 0 after reset, is read by every relative operand resolution, and is changed by a step only where
the instruction is adjust-base, by its operand's value; the host changes it only by a reset or a step. -/
def Obligations.OnlyAdjustBaseWritesTheBase : Prop :=
  (∀ p i : List Int, (hostReset p i).rb = 0) ∧ State.reset.rb = 0 ∧
  (∀ (i : Nat) (s : State), val i .relative s = memRead (s.rb + raw i s) s ∧ dst i .relative s = checkAddr (s.rb + raw i s)) ∧
  (∀ s t : State, step s = .next t → t.rb ≠ s.rb →
    ∃ m v, decode (s.readCell s.ip) = .ok (.adjustBase m) ∧ val 1 m s = .ok v ∧ t.rb = s.rb + v) ∧
  (∀ (v : Int) (s : State), (pushInput v s).rb = s.rb) ∧
  (∀ (k : Nat) (s t : State) (q : List Int), drainOutput k s = some (q, t) → t.rb = s.rb)

/-- The extent never decreases: no step and no host move but a reset shortens the memory (10_state.md section 3). -/
def Obligations.ExtentNeverDecreases : Prop :=
  (∀ s t : State, step s = .next t → s.len ≤ t.len) ∧
  ∀ (m : HostMove) (x y : Session), (∀ p i, m ≠ .reset p i) → hostMove m x = some y → x.core.len ≤ y.core.len

/-- Only output lengthens the output channel and only input shortens the input channel, each by exactly one item, the item
the instruction moves (10_state.md section 3). -/
def Obligations.ChannelsMoveByOneItem : Prop :=
  ∀ s t : State, step s = .next t →
    (t.outq = s.outq ∨ ∃ m v, decode (s.readCell s.ip) = .ok (.output m) ∧ val 1 m s = .ok v ∧ t.outq = s.outq ++ [v]) ∧
    (t.inq = s.inq ∨ ∃ m d v, decode (s.readCell s.ip) = .ok (.input m) ∧ dst 1 m s = .ok d ∧ s.inq = v :: t.inq)

/-- A stopped core stays as it is until a reset: whatever else the host does, its memory, extent, pointer, base and status
stay, the total output of its run stays, it removes nothing from its input, and a run of any length changes nothing
(decisions D7 and D10, log entries 8 and 11). -/
def Obligations.StoppedCoreStaysStopped : Prop :=
  (∀ (ms : List HostMove) (x y : Session), x.core.status ≠ .running → (∀ p i, HostMove.reset p i ∉ ms) →
    hostMoves ms x = some y →
      y.core.mem = x.core.mem ∧ y.core.len = x.core.len ∧ y.core.ip = x.core.ip ∧ y.core.rb = x.core.rb ∧
        y.core.status = x.core.status ∧ y.totalOutput = x.totalOutput ∧
        y.core.inq = x.core.inq ++ suppliedItems ms) ∧
  (∀ (n : Nat) (s : State), s.status ≠ .running → runFor n s = s)

/-- `PushInput` appends at the tail in any status and changes nothing else (R144). From R110 and R149 it follows that a step that
does not starve is the same step with the item left waiting, and that a step that starves would have consumed the item;
that an empty channel starves at all is the spec's decision D6 (log entry 7). -/
def Obligations.PushedInputWaitsItsTurn : Prop :=
  (∀ (v : Int) (x : Session),
    hostMove (.pushInput v) x = some { x with core := { x.core with inq := x.core.inq ++ [v] } }) ∧
  (∀ (v : Int) (s t : State), step s = .next t → t.status ≠ .faulted .inputStarved →
    step (pushInput v s) = .next (pushInput v t)) ∧
  (∀ (v : Int) (s t : State), s.Inv → step s = .next t → t.status = .faulted .inputStarved →
    ∃ u, step (pushInput v s) = .next u ∧ u.status = .running ∧ u.inq = [] ∧ u.ip = s.ip + 2)

/-- R145: `DrainOutput` returns and removes the oldest items in any status and changes nothing else; what waits in the output
channel never affects a step, which pushes the same items on any other backlog; and the total output of a run grows by
every item its steps push, in push order, however the host drains it. -/
def Obligations.OutputBacklogIsInvisible : Prop :=
  (∀ (k : Nat) (s : State), k ≤ s.outq.length →
    drainOutput k s = some (s.outq.take k, { s with outq := s.outq.drop k })) ∧
  (∀ (k : Nat) (x : Session), k ≤ x.core.outq.length →
    hostMove (.drainOutput k) x =
      some { core := { x.core with outq := x.core.outq.drop k }, drained := x.drained ++ x.core.outq.take k }) ∧
  (∀ (s t : State) (q : List Int), step s = .next t →
    t.outq = s.outq ++ pushedByStep s ∧ step { s with outq := q } = .next { t with outq := q ++ pushedByStep s }) ∧
  (∀ (ms : List HostMove) (x y : Session), (∀ p i, HostMove.reset p i ∉ ms) → hostMoves ms x = some y →
    y.totalOutput = x.totalOutput ++ pushedByMoves ms x)

/-- The outcome of a run depends on the program and the items supplied in time, and on nothing else (R149): neither on when an
item was pushed, whether with the reset or between two steps, nor on what was drained when. A session that did not starve
reads back what the batch run of as many steps does that had every item from the start; two sessions of one program and
one sequence of items that are over read back the same, if neither starved, and also if both starved for the same item. That
an item pushed too late is a fault is the spec's decision D6 (log entry 7). -/
def Obligations.OutcomeDependsOnlyOnProgramAndTimelyItems : Prop :=
  (∀ (p i : List Int) (ms : List HostMove) (x u : Session), (∀ q j, HostMove.reset q j ∉ ms) →
    hostMoves (.reset p i :: ms) x = some u → u.core.status ≠ .faulted .inputStarved →
      u.readBack = Session.readBack ⟨runFor (ms.count .step) (hostReset p (i ++ suppliedItems ms)), []⟩) ∧
  (∀ (p i j : List Int) (ms ns : List HostMove) (x y u v : Session),
    (∀ q k, HostMove.reset q k ∉ ms) → (∀ q k, HostMove.reset q k ∉ ns) →
    hostMoves (.reset p i :: ms) x = some u → hostMoves (.reset p j :: ns) y = some v →
    i ++ suppliedItems ms = j ++ suppliedItems ns → u.core.status ≠ .running → v.core.status ≠ .running →
      (u.core.status ≠ .faulted .inputStarved → v.core.status ≠ .faulted .inputStarved → u.readBack = v.readBack) ∧
      (u.core.status = .faulted .inputStarved → v.core.status = .faulted .inputStarved →
        u.core.inq.length = v.core.inq.length → u.readBack = v.readBack))

/-- Where the blocking policy would hold the core, the fail-fast core starves and one pushed item lifts the hold; everywhere
else the two policies take the same step, so programs whose input is supplied in time cannot tell them apart
(50_host_interface.md section 5; the policy not taken, log entry 23). -/
def Obligations.BlockingPolicyDiffersOnlyWhenHeld : Prop :=
  ∀ s : State, s.status = .running →
    (inputHeld s = true → stepBlocking s = none ∧ step s = .next { s with status := .faulted .inputStarved } ∧
      ∀ v, ∃ t, stepBlocking (pushInput v s) = some t ∧ t.inq = []) ∧
    (inputHeld s = false → stepBlocking s = some (stepRequest s).1)

/-! ## Transactions -/

/-- A step's transactions are the fetch; then, operand by operand in slot order, the read of the slot and of the cell a
positional or relative source names; and last at most one write (R56; decision D8, log entry 9). An instruction that completes
reads for each of its operands, and writes exactly where it has a destination, the cell that destination names. A step that
faults writes nothing, and its reads end at the operand that raised, whose slot is read unless its mode digit was refused
(the model's reading, log entry 22). -/
def Obligations.TransactionsEndInOneWrite : Prop :=
  ∀ s t : State, step s = .next t →
    ∃ (rs : List (List Nat)) (rest : List Nat) (w : List Txn),
      stepTransactions s = Txn.read s.ip :: (rs.flatten ++ rest).map Txn.read ++ w ∧
      (w = [] ∨ ∃ a v, w = [Txn.write a v]) ∧ (∀ c, t.status = .faulted c → w = []) ∧
      (∀ a v, s.Inv → w = [Txn.write a v] → t.readCell a = v) ∧ (w = [] → t.mem = s.mem ∧ t.len = s.len) ∧
      (∀ e, decode (s.readCell s.ip) = .error e → rs = [] ∧ rest = []) ∧
      (∀ i, decode (s.readCell s.ip) = .ok i → OperandsRead s i.operands rs ∧
        ((∀ c, t.status ≠ .faulted c) →
          rs.length = i.operands.length ∧ rest = [] ∧ (w ≠ [] ↔ ∃ m, (Role.destination, m) ∈ i.operands) ∧
            ∀ a v, w = [Txn.write a v] → ∃ k m, i.operands[k]? = some (.destination, m) ∧ dst (k + 1) m s = .ok a) ∧
        (∀ c, t.status = .faulted c →
          (rs.length = i.operands.length ∧ rest = []) ∨
            ∃ r m, i.operands[rs.length]? = some (r, m) ∧ OperandRaises (rs.length + 1) m s c ∧
              rest = if m.legal then [s.ip + (rs.length + 1)] else []))

/-- A step depends on no cell but those its transactions read: from two states that agree in these cells and in everything
but memory, the transactions and everything but the memory of the next state are the same. The listing of the transactions is
the model's (log entry 22). -/
def Obligations.StepDependsOnlyOnTheCellsItReads : Prop :=
  ∀ s s' t t' : State, s'.ip = s.ip → s'.rb = s.rb → s'.status = s.status → s'.inq = s.inq → s'.outq = s.outq →
    (∀ a, Txn.read a ∈ stepTransactions s → s'.readCell a = s.readCell a) → step s = .next t → step s' = .next t' →
      stepTransactions s' = stepTransactions s ∧ t'.ip = t.ip ∧ t'.rb = t.rb ∧ t'.status = t.status ∧ t'.inq = t.inq ∧
        t'.outq = t.outq

/-! ## Invariants -/

/-- The invariant holds after reset with the empty program and input (the model's `State.reset`, log entry 16). -/
def Obligations.ResetMeetsTheInvariant : Prop :=
  State.reset.Inv

/-- Every step keeps the invariant, from every state that meets it: the cell array stays canonical, every cell at or beyond
the extent reads as 0, and a faulted status records a value its cause can have. -/
def Obligations.StepKeepsTheInvariant : Prop :=
  ∀ s t : State, s.Inv → step s = .next t → t.Inv

/-- The invariant holds in every state a host can reach from any state that meets it, by any moves in any order: resets with
any program and input, steps, pushes and drains. -/
def Obligations.HostMovesKeepTheInvariant : Prop :=
  ∀ (ms : List HostMove) (x y : Session), x.core.Inv → hostMoves ms x = some y → y.core.Inv
end

