-- ==== Sys2Proof/Laws/Decode.lean ====
section
/-! SUPPORT. The laws of the decoder's parts and of the encoder's parts. -/

namespace Sys2Proof

/-- The opcode of a negative word lies in -99 .. 0 (R63). -/
theorem splitWord_op_of_neg {w : Int} (h : w < 0) : -99 ≤ (splitWord w).op ∧ (splitWord w).op ≤ 0 := by
  have h1 : (splitWord w).op = -((-w) % 100) := by
    have : 0 ≤ -w := by omega
    show w.tmod 100 = _
    rw [← Int.tmod_eq_emod_of_nonneg this, Int.neg_tmod, Int.neg_neg]
  omega

/-- Every opcode has one or two digits and is not 0 (R68). -/
theorem opcode_bounds (i : Instr) : 1 ≤ i.opcode ∧ i.opcode ≤ 99 := by
  cases i <;> simp [Instr.opcode]

/-- A row is selected only by one of the ten opcodes (R68). -/
theorem selectRow_opcode {d : Decoded} {i : Instr} (h : selectRow d = some i) : d.op = i.opcode := by
  simp only [selectRow] at h
  split_ifs at h <;> simp_all <;> subst h <;> rfl

/-- No row is selected exactly when the opcode is none of the ten (R69). -/
theorem selectRow_eq_none (d : Decoded) :
    selectRow d = none ↔ d.op ∉ ([1, 2, 3, 4, 5, 6, 7, 8, 9, 99] : List Int) := by
  simp only [selectRow, List.mem_cons, List.not_mem_nil, or_false, not_or]
  split_ifs <;> simp_all

/-- A negative word is an unknown opcode (R63, R69). -/
theorem decode_of_neg {w : Int} (h : w < 0) : decode w = .error (.unknownOpcode w) := by
  have := splitWord_op_of_neg h
  have hnone : selectRow (splitWord w) = none := by
    rw [selectRow_eq_none]
    simp only [List.mem_cons, List.not_mem_nil, or_false, not_or]
    omega
  simp [decode, hnone]

/-- The decoder answers the selected row. -/
theorem decode_eq_ok {w : Int} {i : Instr} : decode w = .ok i ↔ selectRow (splitWord w) = some i := by
  cases h : selectRow (splitWord w) <;> simp [decode, h]

/-- The decoder refuses a word exactly when no row is selected, and keeps the whole word. -/
theorem decode_eq_error {w : Int} {e : DecodeError} :
    decode w = .error e ↔ selectRow (splitWord w) = none ∧ e = .unknownOpcode w := by
  cases h : selectRow (splitWord w) <;> simp [decode, h, eq_comm]

/-- A word that decodes is not negative. -/
theorem decode_ok_nonneg {w : Int} {i : Instr} (h : decode w = .ok i) : 0 ≤ w := by
  by_contra hw
  rw [decode_of_neg (by omega)] at h
  cases h

/-- A mode read from a digit stands for that digit. -/
@[simp] theorem digit_ofDigit (d : Int) : (Mode.ofDigit d).digit = d := by
  unfold Mode.ofDigit
  split_ifs <;> simp_all [Mode.digit]

/-- A well-formed mode is read back from its digit. -/
theorem ofDigit_digit {m : Mode} (h : m.wf = true) : Mode.ofDigit m.digit = m := by
  cases m with
  | positional => rfl
  | immediate => rfl
  | relative => rfl
  | invalid d =>
    have hd : 3 ≤ d ∧ d ≤ 9 := by simpa [Mode.wf] using h
    have h0 : d ≠ 0 := by omega
    have h1 : d ≠ 1 := by omega
    have h2 : d ≠ 2 := by omega
    simp [Mode.ofDigit, Mode.digit, h0, h1, h2]

/-- A mode read from a decimal digit is well-formed. -/
theorem ofDigit_wf {d : Int} (h0 : 0 ≤ d) (h9 : d ≤ 9) : (Mode.ofDigit d).wf = true := by
  unfold Mode.ofDigit
  split_ifs <;> simp [Mode.wf]
  omega

/-- A well-formed mode stands for a decimal digit. -/
theorem digit_bounds {m : Mode} (h : m.wf = true) : 0 ≤ m.digit ∧ m.digit ≤ 9 := by
  cases m with
  | positional => decide
  | immediate => decide
  | relative => decide
  | invalid d =>
    have hd : 3 ≤ d ∧ d ≤ 9 := by simpa [Mode.wf] using h
    simp only [Mode.digit]
    omega

end Sys2Proof
end

