-- ==== Sys2Proof/Laws/State.lean ====
section
/-! SUPPORT. What each update leaves in each field of the state: one lemma per field per update, and what no update but a
store does to the reading of a cell. -/

namespace Sys2Proof.Machine

section
variable (s : State) (a n : Nat) (v : Int) (c : Cause) (q : List Int)

@[simp] theorem writeCell_mem : (s.writeCell a v).mem = s.mem.store a v := rfl
@[simp] theorem writeCell_len : (s.writeCell a v).len = if s.len ≤ a then a + 1 else s.len := rfl
@[simp] theorem writeCell_ip : (s.writeCell a v).ip = s.ip := rfl
@[simp] theorem writeCell_rb : (s.writeCell a v).rb = s.rb := rfl
@[simp] theorem writeCell_status : (s.writeCell a v).status = s.status := rfl
@[simp] theorem writeCell_inq : (s.writeCell a v).inq = s.inq := rfl
@[simp] theorem writeCell_outq : (s.writeCell a v).outq = s.outq := rfl

@[simp] theorem outPush_mem : (outPush v s).mem = s.mem := rfl
@[simp] theorem outPush_len : (outPush v s).len = s.len := rfl
@[simp] theorem outPush_ip : (outPush v s).ip = s.ip := rfl
@[simp] theorem outPush_rb : (outPush v s).rb = s.rb := rfl
@[simp] theorem outPush_status : (outPush v s).status = s.status := rfl
@[simp] theorem outPush_inq : (outPush v s).inq = s.inq := rfl
@[simp] theorem outPush_outq : (outPush v s).outq = s.outq ++ [v] := rfl

@[simp] theorem setInput_mem : (setInput q s).mem = s.mem := rfl
@[simp] theorem setInput_len : (setInput q s).len = s.len := rfl
@[simp] theorem setInput_ip : (setInput q s).ip = s.ip := rfl
@[simp] theorem setInput_rb : (setInput q s).rb = s.rb := rfl
@[simp] theorem setInput_status : (setInput q s).status = s.status := rfl
@[simp] theorem setInput_inq : (setInput q s).inq = q := rfl
@[simp] theorem setInput_outq : (setInput q s).outq = s.outq := rfl

@[simp] theorem advance_mem : (advance n s).mem = s.mem := rfl
@[simp] theorem advance_len : (advance n s).len = s.len := rfl
@[simp] theorem advance_ip : (advance n s).ip = s.ip + n := rfl
@[simp] theorem advance_rb : (advance n s).rb = s.rb := rfl
@[simp] theorem advance_status : (advance n s).status = s.status := rfl
@[simp] theorem advance_inq : (advance n s).inq = s.inq := rfl
@[simp] theorem advance_outq : (advance n s).outq = s.outq := rfl

@[simp] theorem setPointer_mem : (setPointer n s).mem = s.mem := rfl
@[simp] theorem setPointer_len : (setPointer n s).len = s.len := rfl
@[simp] theorem setPointer_ip : (setPointer n s).ip = n := rfl
@[simp] theorem setPointer_rb : (setPointer n s).rb = s.rb := rfl
@[simp] theorem setPointer_status : (setPointer n s).status = s.status := rfl
@[simp] theorem setPointer_inq : (setPointer n s).inq = s.inq := rfl
@[simp] theorem setPointer_outq : (setPointer n s).outq = s.outq := rfl

@[simp] theorem addToBase_mem : (addToBase v s).mem = s.mem := rfl
@[simp] theorem addToBase_len : (addToBase v s).len = s.len := rfl
@[simp] theorem addToBase_ip : (addToBase v s).ip = s.ip := rfl
@[simp] theorem addToBase_rb : (addToBase v s).rb = s.rb + v := rfl
@[simp] theorem addToBase_status : (addToBase v s).status = s.status := rfl
@[simp] theorem addToBase_inq : (addToBase v s).inq = s.inq := rfl
@[simp] theorem addToBase_outq : (addToBase v s).outq = s.outq := rfl

@[simp] theorem enterHalted_mem : (enterHalted s).mem = s.mem := rfl
@[simp] theorem enterHalted_len : (enterHalted s).len = s.len := rfl
@[simp] theorem enterHalted_ip : (enterHalted s).ip = s.ip := rfl
@[simp] theorem enterHalted_rb : (enterHalted s).rb = s.rb := rfl
@[simp] theorem enterHalted_status : (enterHalted s).status = .halted := rfl
@[simp] theorem enterHalted_inq : (enterHalted s).inq = s.inq := rfl
@[simp] theorem enterHalted_outq : (enterHalted s).outq = s.outq := rfl

@[simp] theorem takeFault_mem : (takeFault c s).mem = s.mem := rfl
@[simp] theorem takeFault_len : (takeFault c s).len = s.len := rfl
@[simp] theorem takeFault_ip : (takeFault c s).ip = s.ip := rfl
@[simp] theorem takeFault_rb : (takeFault c s).rb = s.rb := rfl
@[simp] theorem takeFault_status : (takeFault c s).status = .faulted c := rfl
@[simp] theorem takeFault_inq : (takeFault c s).inq = s.inq := rfl
@[simp] theorem takeFault_outq : (takeFault c s).outq = s.outq := rfl

@[simp] theorem pushInput_mem : (pushInput v s).mem = s.mem := rfl
@[simp] theorem pushInput_len : (pushInput v s).len = s.len := rfl
@[simp] theorem pushInput_ip : (pushInput v s).ip = s.ip := rfl
@[simp] theorem pushInput_rb : (pushInput v s).rb = s.rb := rfl
@[simp] theorem pushInput_status : (pushInput v s).status = s.status := rfl
@[simp] theorem pushInput_inq : (pushInput v s).inq = s.inq ++ [v] := rfl
@[simp] theorem pushInput_outq : (pushInput v s).outq = s.outq := rfl

end

section
variable (s : State) (a n : Nat) (v : Int) (c : Cause) (q : List Int)

@[simp] theorem outPush_readCell : (outPush v s).readCell a = s.readCell a := rfl
@[simp] theorem setInput_readCell : (setInput q s).readCell a = s.readCell a := rfl
@[simp] theorem advance_readCell : (advance n s).readCell a = s.readCell a := rfl
@[simp] theorem setPointer_readCell : (setPointer n s).readCell a = s.readCell a := rfl
@[simp] theorem addToBase_readCell : (addToBase v s).readCell a = s.readCell a := rfl
@[simp] theorem enterHalted_readCell : (enterHalted s).readCell a = s.readCell a := rfl
@[simp] theorem takeFault_readCell : (takeFault c s).readCell a = s.readCell a := rfl
@[simp] theorem pushInput_readCell : (pushInput v s).readCell a = s.readCell a := rfl

end

/-- Two states whose cells, base and pointer read the same have the same operand words. -/
theorem raw_congr {s t : State} (i : Nat) (hip : t.ip = s.ip) (h : ∀ a, t.readCell a = s.readCell a) : raw i t = raw i s := by
  simp [raw, slot, hip, h]

end Sys2Proof.Machine
end

