-- ==== Sys2Proof/Laws/Memory.lean ====
section
/-! SUPPORT. The laws of the cell array: a read after a write, and that every memory operation keeps the canonical form. -/

namespace Sys2Proof.Machine

/-- A cell no listed entry names holds what an unwritten cell holds. -/
theorem lookup_eq_unwritten (m : Memory) (a : Nat) (h : ∀ c ∈ m, c.1 ≠ a) : m.lookup a = Config.unwritten := by
  induction m with
  | nil => rfl
  | cons c m ih =>
    obtain ⟨b, v⟩ := c
    have hb : b ≠ a := h (b, v) (by simp)
    simp [Memory.lookup, hb, ih fun c hc => h c (by simp [hc])]

/-- A store leaves every other cell alone, in any array. -/
theorem lookup_store_other (m : Memory) {a b : Nat} (v : Int) (h : b ≠ a) : (m.store a v).lookup b = m.lookup b := by
  induction m with
  | nil =>
    by_cases hv : v = Config.unwritten
    · simp [Memory.store, hv]
    · simp [Memory.store, hv, Memory.lookup, h.symm]
  | cons c m ih =>
    obtain ⟨k, u⟩ := c
    rcases Nat.lt_trichotomy a k with hak | rfl | hak
    · by_cases hv : v = Config.unwritten <;> simp [Memory.store, hak, hv, Memory.lookup, h.symm]
    · by_cases hv : v = Config.unwritten <;> simp [Memory.store, hv, Memory.lookup, h.symm]
    · have h1 : ¬ a < k := by omega
      have h2 : ¬ a = k := by omega
      simp [Memory.store, h1, h2, Memory.lookup, ih]

/-- A cell holds what was stored in it, in a canonical array. -/
theorem lookup_store_same (m : Memory) (a : Nat) (v : Int) (h : m.wf) : (m.store a v).lookup a = v := by
  induction m with
  | nil =>
    by_cases hv : v = Config.unwritten
    · simp [Memory.store, hv, Memory.lookup]
    · simp [Memory.store, hv, Memory.lookup]
  | cons c m ih =>
    obtain ⟨k, u⟩ := c
    have hlt : ∀ c ∈ m, k < c.1 := (List.pairwise_cons.1 h.1).1
    have hm : Memory.wf m := ⟨(List.pairwise_cons.1 h.1).2, fun c hc => h.2 c (by simp [hc])⟩
    rcases Nat.lt_trichotomy a k with hak | rfl | hak
    · by_cases hv : v = Config.unwritten
      · have hk : k ≠ a := by omega
        have hnone : Memory.lookup m a = Config.unwritten :=
          lookup_eq_unwritten m a fun c hc => by have := hlt c hc; omega
        simp [Memory.store, hak, hv, Memory.lookup, hk, hnone]
      · simp [Memory.store, hak, hv, Memory.lookup]
    · by_cases hv : v = Config.unwritten
      · have hnone : Memory.lookup m a = Config.unwritten :=
          lookup_eq_unwritten m a fun c hc => by have := hlt c hc; omega
        simp [Memory.store, hv, hnone]
      · simp [Memory.store, hv, Memory.lookup]
    · have h1 : ¬ a < k := by omega
      have h2 : ¬ a = k := by omega
      have h3 : ¬ k = a := by omega
      simp [Memory.store, h1, h2, Memory.lookup, h3, ih hm]

/-- Every entry of an array after a store was there before or is the stored cell. -/
theorem mem_store (m : Memory) (a : Nat) (v : Int) {c : Nat × Int} (h : c ∈ m.store a v) :
    c ∈ m ∨ (c = (a, v) ∧ v ≠ Config.unwritten) := by
  induction m with
  | nil =>
    by_cases hv : v = Config.unwritten
    · simp [Memory.store, hv] at h
    · exact .inr ⟨by simpa [Memory.store, hv] using h, hv⟩
  | cons d m ih =>
    obtain ⟨k, u⟩ := d
    rcases Nat.lt_trichotomy a k with hak | rfl | hak
    · by_cases hv : v = Config.unwritten
      · exact .inl (by simpa [Memory.store, hak, hv] using h)
      · simp only [Memory.store, hak, hv, if_true, if_false, List.mem_cons] at h
        rcases h with h | h | h
        · exact .inr ⟨h, hv⟩
        · exact .inl (by simp [h])
        · exact .inl (by simp [h])
    · by_cases hv : v = Config.unwritten
      · exact .inl (by simp [Memory.store, hv] at h; simp [h])
      · simp only [Memory.store, Nat.lt_irrefl, hv, if_true, if_false, List.mem_cons] at h
        rcases h with h | h
        · exact .inr ⟨h, hv⟩
        · exact .inl (by simp [h])
    · have h1 : ¬ a < k := by omega
      have h2 : ¬ a = k := by omega
      simp only [Memory.store, h1, h2, if_false, List.mem_cons] at h
      rcases h with h | h
      · exact .inl (by simp [h])
      · rcases ih h with h | h
        · exact .inl (by simp [h])
        · exact .inr h

/-- A store keeps the canonical form. -/
theorem store_wf (m : Memory) (a : Nat) (v : Int) (h : m.wf) : (m.store a v).wf := by
  refine ⟨?_, fun c hc => ?_⟩
  · induction m with
    | nil => by_cases hv : v = Config.unwritten <;> simp [Memory.store, hv]
    | cons d m ih =>
      obtain ⟨k, u⟩ := d
      have hlt : ∀ c ∈ m, k < c.1 := (List.pairwise_cons.1 h.1).1
      have hp := (List.pairwise_cons.1 h.1).2
      have hm : Memory.wf m := ⟨hp, fun c hc => h.2 c (by simp [hc])⟩
      rcases Nat.lt_trichotomy a k with hak | rfl | hak
      · by_cases hv : v = Config.unwritten
        · simpa [Memory.store, hak, hv] using h.1
        · simp only [Memory.store, hak, hv, if_true, if_false]
          refine List.pairwise_cons.2 ⟨fun c hc => ?_, h.1⟩
          rcases List.mem_cons.1 hc with rfl | hc
          · exact hak
          · exact Nat.lt_trans hak (hlt c hc)
      · by_cases hv : v = Config.unwritten
        · simpa [Memory.store, hv] using hp
        · simp only [Memory.store, Nat.lt_irrefl, hv, if_true, if_false]
          exact List.pairwise_cons.2 ⟨hlt, hp⟩
      · have h1 : ¬ a < k := by omega
        have h2 : ¬ a = k := by omega
        simp only [Memory.store, h1, h2, if_false]
        refine List.pairwise_cons.2 ⟨fun c hc => ?_, ih hm⟩
        rcases mem_store m a v hc with hc | ⟨rfl, -⟩
        · exact hlt c hc
        · exact hak
  · rcases mem_store m a v hc with hc | ⟨rfl, hv⟩
    · exact h.2 c hc
    · exact hv

/-- A store leaves every listed cell inside the extent that the store leaves. -/
theorem store_within (m : Memory) (len : Nat) (a : Nat) (v : Int) (h : m.within len) :
    (m.store a v).within (if len ≤ a then a + 1 else len) := by
  intro c hc
  rcases mem_store m a v hc with hc | ⟨rfl, -⟩
  · have := h c hc
    split <;> omega
  · split <;> simp_all

/-- The loaded cells of a program hold its integers, and every other cell what an unwritten one holds. -/
theorem lookup_loadFrom (p : List Int) (b a : Nat) :
    (loadFrom b p).lookup a = if b ≤ a then p.getD (a - b) Config.unwritten else Config.unwritten := by
  induction p generalizing b with
  | nil => simp [loadFrom, Memory.lookup]
  | cons v p ih =>
    rcases Nat.lt_trichotomy a b with hab | rfl | hab
    · have h1 : ¬ b ≤ a := by omega
      have h2 : ¬ b + 1 ≤ a := by omega
      have h3 : ¬ b = a := by omega
      by_cases hv : v = Config.unwritten <;> simp [loadFrom, hv, Memory.lookup, ih, h1, h2, h3]
    · have h2 : ¬ a + 1 ≤ a := by omega
      by_cases hv : v = Config.unwritten <;> simp [loadFrom, hv, Memory.lookup, ih]
    · have h1 : b ≤ a := by omega
      have h2 : b + 1 ≤ a := by omega
      have h3 : ¬ b = a := by omega
      have h4 : a - b = (a - (b + 1)) + 1 := by omega
      by_cases hv : v = Config.unwritten <;> simp [loadFrom, hv, Memory.lookup, ih, h1, h2, h3, h4]

/-- The entries of a loaded program lie at its addresses and list no unwritten cell. -/
theorem mem_loadFrom (p : List Int) (b : Nat) {c : Nat × Int} (h : c ∈ loadFrom b p) :
    b ≤ c.1 ∧ c.1 < b + p.length ∧ c.2 ≠ Config.unwritten := by
  induction p generalizing b with
  | nil => simp [loadFrom] at h
  | cons v p ih =>
    by_cases hv : v = Config.unwritten
    · have := ih (b + 1) (by simpa [loadFrom, hv] using h)
      exact ⟨by omega, by simp only [List.length_cons]; omega, this.2.2⟩
    · simp only [loadFrom, hv, if_false, List.mem_cons] at h
      rcases h with rfl | h
      · exact ⟨Nat.le_refl _, by simp, hv⟩
      · have := ih (b + 1) h
        exact ⟨by omega, by simp only [List.length_cons]; omega, this.2.2⟩

/-- Loading a program gives the canonical form. -/
theorem loadFrom_wf (p : List Int) (b : Nat) : (loadFrom b p).wf := by
  refine ⟨?_, fun c hc => (mem_loadFrom p b hc).2.2⟩
  induction p generalizing b with
  | nil => simp [loadFrom]
  | cons v p ih =>
    by_cases hv : v = Config.unwritten
    · simpa [loadFrom, hv] using ih (b + 1)
    · simp only [loadFrom, hv, if_false]
      exact List.pairwise_cons.2 ⟨fun c hc => (mem_loadFrom p (b + 1) hc).1, ih (b + 1)⟩

/-- A loaded program lies inside its own extent. -/
theorem loadFrom_within (p : List Int) : (loadFrom 0 p).within p.length := fun c hc => by
  have := (mem_loadFrom p 0 hc).2.1
  omega

/-! ## Reading a cell of a state -/

/-- A cell at or beyond the extent reads as 0. -/
theorem readCell_beyond (s : State) {a : Nat} (h : s.len ≤ a) : s.readCell a = 0 := by
  simp [State.readCell, Nat.not_lt.2 h]

/-- In a state whose listed cells lie inside the extent, reading is looking up. -/
theorem readCell_eq_lookup (s : State) (h : s.mem.within s.len) (a : Nat) : s.readCell a = s.mem.lookup a := by
  by_cases ha : a < s.len
  · simp [State.readCell, ha]
  · rw [readCell_beyond s (Nat.not_lt.1 ha),
      lookup_eq_unwritten s.mem a fun c hc => by have := h c hc; omega]
    rfl

/-- A cell reads as what was written to it. -/
theorem readCell_writeCell_same (s : State) (a : Nat) (v : Int) (h : s.mem.wf) : (s.writeCell a v).readCell a = v := by
  have ha : a < (s.writeCell a v).len := by simp only [writeCell_len]; split <;> omega
  rw [State.readCell, if_pos ha, writeCell_mem, lookup_store_same s.mem a v h]

/-- A write leaves the reading of every other cell alone. -/
theorem readCell_writeCell_other (s : State) {a b : Nat} (v : Int) (h : s.mem.within s.len) (hb : b ≠ a) :
    (s.writeCell a v).readCell b = s.readCell b := by
  rw [readCell_eq_lookup s h, readCell_eq_lookup (s.writeCell a v) (store_within s.mem s.len a v h), writeCell_mem,
    lookup_store_other s.mem v hb]

/-- A write keeps the invariant. -/
theorem writeCell_inv (s : State) (a : Nat) (v : Int) (h : s.Inv) : (s.writeCell a v).Inv :=
  ⟨store_wf s.mem a v h.1, store_within s.mem s.len a v h.2.1, h.2.2⟩

/-- A write changes one cell and the extent it has to grow. -/
theorem writeCell_onlyCell (s : State) (a : Nat) (v : Int) (h : s.mem.within s.len) :
    OnlyCellWritten a s (s.writeCell a v) :=
  ⟨fun _ hb => readCell_writeCell_other s v h hb, by simp only [writeCell_len]; split <;> omega⟩

/-- Reset leaves the invariant. -/
theorem hostReset_inv (p i : List Int) : (hostReset p i).Inv :=
  ⟨loadFrom_wf p 0, loadFrom_within p, rfl⟩

/-- A loaded cell reads as the program's integer, and every other one as 0. -/
theorem hostReset_readCell (p i : List Int) (a : Nat) : (hostReset p i).readCell a = p.getD a 0 := by
  rw [readCell_eq_lookup _ (loadFrom_within p)]
  simpa [hostReset, Config.unwritten] using lookup_loadFrom p 0 a

end Sys2Proof.Machine
end

