-- ==== Sys2Proof/Laws/Ops.lean ====
section
/-! SUPPORT. One specification per shared operation: what it answers and what it raises. -/

namespace Sys2Proof.Machine

/-! ## Addresses and cells -/

/-- The address check passes exactly the non-negative integers (R41). -/
theorem checkAddr_eq_ok {a : Int} {n : Nat} : checkAddr a = .ok n ↔ a = (n : Int) := by
  unfold checkAddr
  split
  · simp only [reduceCtorEq, false_iff]
    omega
  · simp only [Except.ok.injEq]
    omega

/-- The address check raises `NegativeAddress` with the address itself, exactly for a negative one (R41). -/
theorem checkAddr_eq_error {a : Int} {c : Cause} : checkAddr a = .error c ↔ a < 0 ∧ c = .negativeAddress a := by
  unfold checkAddr
  split <;> simp_all [eq_comm]

/-- A natural number passes the address check as itself. -/
@[simp] theorem checkAddr_natCast (n : Nat) : checkAddr (n : Int) = .ok n :=
  checkAddr_eq_ok.2 rfl

/-- A read answers what the cell at a non-negative address reads as (R42). -/
theorem memRead_eq_ok {a : Int} {s : State} {v : Int} :
    memRead a s = .ok v ↔ ∃ n : Nat, a = n ∧ v = s.readCell n := by
  simp only [memRead]
  cases h : checkAddr a with
  | ok n =>
    rw [checkAddr_eq_ok] at h
    subst h
    simp [bind, Except.bind, pure, Except.pure, eq_comm]
  | error c =>
    rw [checkAddr_eq_error] at h
    simp only [bind, Except.bind, reduceCtorEq, false_iff]
    rintro ⟨n, rfl, -⟩
    omega

/-- A read raises `NegativeAddress` with the address, exactly for a negative one (R42). -/
theorem memRead_eq_error {a : Int} {s : State} {c : Cause} :
    memRead a s = .error c ↔ a < 0 ∧ c = .negativeAddress a := by
  rw [← checkAddr_eq_error]
  cases h : checkAddr a <;> simp [memRead, h, bind, Except.bind, pure, Except.pure]

/-- A read at a natural address never raises. -/
@[simp] theorem memRead_natCast (n : Nat) (s : State) : memRead (n : Int) s = .ok (s.readCell n) :=
  memRead_eq_ok.2 ⟨n, rfl, rfl⟩

/-- A write at a natural address never raises (R85). -/
@[simp] theorem memWrite_natCast (n : Nat) (v : Int) (s : State) : memWrite (n : Int) v s = .ok (s.writeCell n v) := by
  simp [memWrite, bind, Except.bind, pure, Except.pure]

/-! ## Channel, pointer, frame -/

/-- A pop answers the head and leaves the rest (R110). -/
theorem inPop_eq_ok {s t : State} {v : Int} : inPop s = .ok (v, t) ↔ ∃ rest, s.inq = v :: rest ∧ t = setInput rest s := by
  unfold inPop
  cases h : s.inq <;> simp [eq_comm]

/-- A pop raises `InputStarved`, exactly on an empty channel (R110). -/
theorem inPop_eq_error {s : State} {c : Cause} : inPop s = .error c ↔ s.inq = [] ∧ c = .inputStarved := by
  unfold inPop
  cases h : s.inq <;> simp [eq_comm]

/-- A jump answers the state with the pointer at a non-negative target (R122). -/
theorem jumpTo_eq_ok {s t : State} {v : Int} : jumpTo v s = .ok t ↔ ∃ n : Nat, v = n ∧ t = setPointer n s := by
  simp only [jumpTo]
  cases h : checkAddr v with
  | ok n =>
    rw [checkAddr_eq_ok] at h
    subst h
    simp [bind, Except.bind, pure, Except.pure, eq_comm]
  | error c =>
    rw [checkAddr_eq_error] at h
    simp only [bind, Except.bind, reduceCtorEq, false_iff]
    rintro ⟨n, rfl, -⟩
    omega

/-- A jump raises `NegativeAddress` with its target, exactly for a negative one (R122). -/
theorem jumpTo_eq_error {s : State} {v : Int} {c : Cause} : jumpTo v s = .error c ↔ v < 0 ∧ c = .negativeAddress v := by
  rw [← checkAddr_eq_error]
  cases h : checkAddr v <;> simp [jumpTo, h, bind, Except.bind, pure, Except.pure]

/-- An instruction always ends in a next state: its effect, or the fault taken in the state it began in (R166). -/
theorem complete_eq_next {s t : State} {r : Except Cause State} :
    complete s r = .next t ↔ r = .ok t ∨ ∃ c, r = .error c ∧ t = takeFault c s := by
  cases r <;> simp [complete, eq_comm]

@[simp] theorem complete_ok (s t : State) : complete s (.ok t) = .next t := rfl
@[simp] theorem complete_error (s : State) (c : Cause) : complete s (.error c) = .next (takeFault c s) := rfl

/-- An instruction is never refused. -/
theorem complete_ne_refused (s : State) (r : Except Cause State) (e : Refusal) : complete s r ≠ .refused e := by
  cases r <;> simp [complete]

/-- The fetch answers the instruction that the cell at the pointer decodes to (R80, R81). -/
theorem fetchDecode_eq_ok {s : State} {i : Instr} : fetchDecode s = .ok i ↔ decode (s.readCell s.ip) = .ok i := by
  simp only [fetchDecode, memRead_natCast]
  cases h : decode (s.readCell s.ip) with
  | ok j => simp [bind, Except.bind, h, pure, Except.pure]
  | error e => cases e; simp [bind, Except.bind, h]

/-- The fetch raises nothing but `UnknownOpcode` with the whole word at the pointer (R81, R161). -/
theorem fetchDecode_eq_error {s : State} {c : Cause} :
    fetchDecode s = .error c ↔
      selectRow (splitWord (s.readCell s.ip)) = none ∧ c = .unknownOpcode (s.readCell s.ip) := by
  simp only [fetchDecode, memRead_natCast]
  cases h : decode (s.readCell s.ip) with
  | ok j =>
    have := decode_eq_ok.1 h
    simp [bind, Except.bind, h, pure, Except.pure, this]
  | error e =>
    obtain ⟨hn, rfl⟩ := decode_eq_error.1 h
    simp [bind, Except.bind, h, hn, eq_comm]

end Sys2Proof.Machine
end

