-- ==== Sys2Proof/Laws/Operands.lean ====
section
/-! SUPPORT. What the two resolvers answer and raise, mode by mode (R84, R85), and phase 4 for a list of operands (R80). -/

namespace Sys2Proof.Machine

@[simp] theorem val_immediate (i : Nat) (s : State) : val i .immediate s = .ok (raw i s) := rfl
@[simp] theorem val_positional (i : Nat) (s : State) : val i .positional s = memRead (raw i s) s := rfl
@[simp] theorem val_relative (i : Nat) (s : State) : val i .relative s = memRead (s.rb + raw i s) s := rfl
@[simp] theorem val_invalid (i : Nat) (d : Int) (s : State) : val i (.invalid d) s = .error (.invalidMode i d) := rfl

@[simp] theorem dst_immediate (i : Nat) (s : State) : dst i .immediate s = .ok (slot i s) := checkAddr_natCast _
@[simp] theorem dst_positional (i : Nat) (s : State) : dst i .positional s = checkAddr (raw i s) := rfl
@[simp] theorem dst_relative (i : Nat) (s : State) : dst i .relative s = checkAddr (s.rb + raw i s) := rfl
@[simp] theorem dst_invalid (i : Nat) (d : Int) (s : State) : dst i (.invalid d) s = .error (.invalidMode i d) := rfl

/-- A source raises what its mode can raise, and nothing else. -/
theorem val_eq_error {i : Nat} {m : Mode} {s : State} {c : Cause} : val i m s = .error c ↔ OperandRaises i m s c := by
  cases m <;> simp [OperandRaises, memRead_eq_error]
  all_goals exact eq_comm

/-- A destination raises what its mode can raise, and nothing else. -/
theorem dst_eq_error {i : Nat} {m : Mode} {s : State} {c : Cause} : dst i m s = .error c ↔ OperandRaises i m s c := by
  cases m <;> simp [OperandRaises, checkAddr_eq_error]
  all_goals exact eq_comm

/-- Resolving an operand in either role raises what its mode can raise, and nothing else. -/
theorem resolveOperand_eq_error {i : Nat} {r : Role} {m : Mode} {s : State} {c : Cause} :
    resolveOperand i r m s = .error c ↔ OperandRaises i m s c := by
  cases r with
  | source =>
    rw [← val_eq_error]
    cases h : val i m s <;> simp [resolveOperand, h, Except.map]
  | destination =>
    rw [← dst_eq_error]
    cases h : dst i m s <;> simp [resolveOperand, h, Except.map]

/-- A source resolves exactly when it has a value. -/
theorem resolveOperand_source {i : Nat} {m : Mode} {s : State} :
    resolveOperand i .source m s = .ok () ↔ ∃ v, val i m s = .ok v := by
  cases h : val i m s <;> simp [resolveOperand, h, Except.map]

/-- A destination resolves exactly when it names a cell. -/
theorem resolveOperand_destination {i : Nat} {m : Mode} {s : State} :
    resolveOperand i .destination m s = .ok () ↔ ∃ d, dst i m s = .ok d := by
  cases h : dst i m s <;> simp [resolveOperand, h, Except.map]

/-- Phase 4 over no operands. -/
@[simp] theorem resolveFrom_nil (i : Nat) (s : State) : resolveFrom i [] s = .ok () := rfl

/-- Phase 4 raises at its first operand, or resolves it and raises later (R80, R167). -/
theorem resolveFrom_cons_error {i : Nat} {r : Role} {m : Mode} {ops : List (Role × Mode)} {s : State} {c : Cause} :
    resolveFrom i ((r, m) :: ops) s = .error c ↔
      resolveOperand i r m s = .error c ∨ (resolveOperand i r m s = .ok () ∧ resolveFrom (i + 1) ops s = .error c) := by
  cases h : resolveOperand i r m s <;> simp [resolveFrom, h, bind, Except.bind]

/-- Phase 4 ends well when every operand resolves. -/
theorem resolveFrom_cons_ok {i : Nat} {r : Role} {m : Mode} {ops : List (Role × Mode)} {s : State} :
    resolveFrom i ((r, m) :: ops) s = .ok () ↔ resolveOperand i r m s = .ok () ∧ resolveFrom (i + 1) ops s = .ok () := by
  cases h : resolveOperand i r m s <;> simp [resolveFrom, h, bind, Except.bind]

/-- What phase 4 raises comes from one of the operands, at its own slot. -/
theorem resolveFrom_error {ops : List (Role × Mode)} {i : Nat} {s : State} {c : Cause} (h : resolveFrom i ops s = .error c) :
    ∃ k r m, ops[k]? = some (r, m) ∧ OperandRaises (i + k) m s c := by
  induction ops generalizing i with
  | nil => cases h
  | cons o ops ih =>
    obtain ⟨r, m⟩ := o
    rcases resolveFrom_cons_error.1 h with h | ⟨-, h⟩
    · exact ⟨0, r, m, rfl, resolveOperand_eq_error.1 h⟩
    · obtain ⟨k, r', m', hk, hc⟩ := ih h
      exact ⟨k + 1, r', m', by simpa using hk, by rwa [show i + (k + 1) = i + 1 + k by omega]⟩

end Sys2Proof.Machine
end

