-- ==== Sys2Proof/Laws/Exec.lean ====
section
/-! SUPPORT. What each meaning answers, said once: its effect, or the fault it takes. `exec_next` says everything a decoded
instruction can do, and the whole-machine claims follow from it by cases. -/

namespace Sys2Proof.Machine

/-! ## The shapes that several instructions share -/

/-- Where its three operands resolve, a three-operand instruction stores and advances by 4 (R100 to R103). -/
theorem storeResult_of_ok {f : Int → Int → Int} {m1 m2 m3 : Mode} {s : State} {v1 v2 : Int} {d : Nat}
    (h1 : val 1 m1 s = .ok v1) (h2 : val 2 m2 s = .ok v2) (h3 : dst 3 m3 s = .ok d) :
    storeResult f m1 m2 m3 s = .ok (advance 4 (s.writeCell d (f v1 v2))) := by
  simp [storeResult, h1, h2, h3, bind, Except.bind, pure, Except.pure]

/-- A three-operand instruction raises what phase 4 raises. -/
theorem storeResult_eq_error {f : Int → Int → Int} {m1 m2 m3 : Mode} {s : State} {c : Cause} :
    storeResult f m1 m2 m3 s = .error c ↔
      resolveFrom 1 [(.source, m1), (.source, m2), (.destination, m3)] s = .error c := by
  simp only [resolveFrom, resolveOperand]
  cases h1 : val 1 m1 s <;> cases h2 : val 2 m2 s <;> cases h3 : dst 3 m3 s <;>
    simp [storeResult, h1, h2, h3, bind, Except.bind, pure, Except.pure, Except.map]

/-- A three-operand instruction that answers a state has resolved its operands, stored and advanced. -/
theorem storeResult_eq_ok {f : Int → Int → Int} {m1 m2 m3 : Mode} {s t : State} (h : storeResult f m1 m2 m3 s = .ok t) :
    ∃ d v, resultStore f m1 m2 m3 s = some (d, v) ∧ t = advance 4 (s.writeCell d v) := by
  cases h1 : val 1 m1 s with
  | error c => simp [storeResult, h1, bind, Except.bind] at h
  | ok v1 =>
    cases h2 : val 2 m2 s with
    | error c => simp [storeResult, h1, h2, bind, Except.bind] at h
    | ok v2 =>
      cases h3 : dst 3 m3 s with
      | error c => simp [storeResult, h1, h2, h3, bind, Except.bind] at h
      | ok d =>
        rw [storeResult_of_ok h1 h2 h3, Except.ok.injEq] at h
        exact ⟨d, f v1 v2, by simp [resultStore, h1, h2, h3], h.symm⟩

/-- Where both operands resolve, a jump tests the first and goes to the second or past itself (R120, R121). -/
theorem jumpWhen_of_ok {p : Int → Bool} {m1 m2 : Mode} {s : State} {v1 v2 : Int}
    (h1 : val 1 m1 s = .ok v1) (h2 : val 2 m2 s = .ok v2) :
    jumpWhen p m1 m2 s = if p v1 then jumpTo v2 s else .ok (advance 3 s) := by
  simp [jumpWhen, h1, h2, bind, Except.bind, pure, Except.pure]

/-- A jump raises what phase 4 raises, or the negative target of a jump that is taken (R87, R122). -/
theorem jumpWhen_eq_error {p : Int → Bool} {m1 m2 : Mode} {s : State} {c : Cause} :
    jumpWhen p m1 m2 s = .error c ↔
      resolveFrom 1 [(.source, m1), (.source, m2)] s = .error c ∨
      ∃ v1 v2, val 1 m1 s = .ok v1 ∧ val 2 m2 s = .ok v2 ∧ p v1 = true ∧ v2 < 0 ∧ c = .negativeAddress v2 := by
  simp only [resolveFrom, resolveOperand]
  cases h1 : val 1 m1 s with
  | error e => simp [jumpWhen, h1, bind, Except.bind, Except.map]
  | ok v1 =>
    cases h2 : val 2 m2 s with
    | error e => simp [jumpWhen, h1, h2, bind, Except.bind, Except.map]
    | ok v2 =>
      rw [jumpWhen_of_ok h1 h2]
      cases hp : p v1 <;> simp [Except.map, bind, Except.bind, hp, jumpTo_eq_error]

/-- A jump that answers a state has resolved both operands, and has gone to its target or past itself. -/
theorem jumpWhen_eq_ok {p : Int → Bool} {m1 m2 : Mode} {s t : State} (h : jumpWhen p m1 m2 s = .ok t) :
    ∃ v1 v2, val 1 m1 s = .ok v1 ∧ val 2 m2 s = .ok v2 ∧
      ((p v1 = true ∧ ∃ n : Nat, v2 = n ∧ t = setPointer n s) ∨ (p v1 = false ∧ t = advance 3 s)) := by
  cases h1 : val 1 m1 s with
  | error c => simp [jumpWhen, h1, bind, Except.bind] at h
  | ok v1 =>
    cases h2 : val 2 m2 s with
    | error c => simp [jumpWhen, h1, h2, bind, Except.bind] at h
    | ok v2 =>
      rw [jumpWhen_of_ok h1 h2] at h
      refine ⟨v1, v2, rfl, rfl, ?_⟩
      cases hp : p v1
      · simp only [hp, Bool.false_eq_true, if_false, Except.ok.injEq] at h
        exact .inr ⟨rfl, h.symm⟩
      · simp only [hp, if_true] at h
        exact .inl ⟨rfl, jumpTo_eq_ok.1 h⟩

/-! ## Everything a decoded instruction can do -/

/-- The fault an instruction takes: what phase 4 raises, a pop of an empty channel, or a negative target of a taken jump. -/
inductive Raises (s : State) : Instr → Cause → Prop
  | operand {i c} (h : resolveAll i s = .error c) : Raises s i c
  | starved {m1 d} (hd : dst 1 m1 s = .ok d) (hq : s.inq = []) : Raises s (.input m1) .inputStarved
  | targetIfTrue {m1 m2 v1 v2} (h1 : val 1 m1 s = .ok v1) (h2 : val 2 m2 s = .ok v2) (hp : v1 ≠ 0) (hv : v2 < 0) :
      Raises s (.jumpIfTrue m1 m2) (.negativeAddress v2)
  | targetIfFalse {m1 m2 v1 v2} (h1 : val 1 m1 s = .ok v1) (h2 : val 2 m2 s = .ok v2) (hp : v1 = 0) (hv : v2 < 0) :
      Raises s (.jumpIfFalse m1 m2) (.negativeAddress v2)

/-- The effect of an instruction that raises nothing. -/
inductive Effect (s : State) : Instr → State → Prop
  | store {i d v} (hi : i.length = 4) (h : storeOf i s = some (d, v)) : Effect s i (advance 4 (s.writeCell d v))
  | input {m1 d v rest} (hd : dst 1 m1 s = .ok d) (hq : s.inq = v :: rest) :
      Effect s (.input m1) (advance 2 ((setInput rest s).writeCell d v))
  | output {m1 v} (hv : val 1 m1 s = .ok v) : Effect s (.output m1) (advance 2 (outPush v s))
  | takenIfTrue {m1 m2 v1} {n : Nat} (h1 : val 1 m1 s = .ok v1) (h2 : val 2 m2 s = .ok n) (hp : v1 ≠ 0) :
      Effect s (.jumpIfTrue m1 m2) (setPointer n s)
  | fallIfTrue {m1 m2 v1 v2} (h1 : val 1 m1 s = .ok v1) (h2 : val 2 m2 s = .ok v2) (hp : v1 = 0) :
      Effect s (.jumpIfTrue m1 m2) (advance 3 s)
  | takenIfFalse {m1 m2 v1} {n : Nat} (h1 : val 1 m1 s = .ok v1) (h2 : val 2 m2 s = .ok n) (hp : v1 = 0) :
      Effect s (.jumpIfFalse m1 m2) (setPointer n s)
  | fallIfFalse {m1 m2 v1 v2} (h1 : val 1 m1 s = .ok v1) (h2 : val 2 m2 s = .ok v2) (hp : v1 ≠ 0) :
      Effect s (.jumpIfFalse m1 m2) (advance 3 s)
  | base {m1 v} (hv : val 1 m1 s = .ok v) : Effect s (.adjustBase m1) (advance 2 (addToBase v s))
  | halt : Effect s .halt (enterHalted s)

/-- The one destination of input raises what phase 4 raises. -/
theorem resolveAll_input {m1 : Mode} {s : State} {c : Cause} :
    resolveAll (.input m1) s = .error c ↔ dst 1 m1 s = .error c := by
  simp only [resolveAll, Instr.operands, resolveFrom, resolveOperand]
  cases h : dst 1 m1 s <;> simp [Except.map, bind, Except.bind]

/-- The one source of an instruction raises what phase 4 raises. -/
theorem resolveFrom_oneSource {m1 : Mode} {s : State} {c : Cause} :
    resolveFrom 1 [(.source, m1)] s = .error c ↔ val 1 m1 s = .error c := by
  simp only [resolveFrom, resolveOperand]
  cases h : val 1 m1 s <;> simp [Except.map, bind, Except.bind]

/-- A three-operand meaning answers its effect or takes the fault of phase 4. -/
theorem complete_storeResult {i : Instr} {f : Int → Int → Int} {m1 m2 m3 : Mode} {s : State}
    (hl : i.operands = [(.source, m1), (.source, m2), (.destination, m3)]) (hs : storeOf i s = resultStore f m1 m2 m3 s) :
    (∃ t, complete s (storeResult f m1 m2 m3 s) = .next t ∧ Effect s i t) ∨
      ∃ c, complete s (storeResult f m1 m2 m3 s) = .next (takeFault c s) ∧ Raises s i c := by
  cases h : storeResult f m1 m2 m3 s with
  | ok t =>
    obtain ⟨d, v, hd, rfl⟩ := storeResult_eq_ok h
    exact .inl ⟨_, rfl, .store (by simp [Instr.length, hl]) (hs.trans hd)⟩
  | error c => exact .inr ⟨c, rfl, .operand (by rw [resolveAll, hl]; exact storeResult_eq_error.1 h)⟩

/-- Every decoded instruction answers a next state: its effect, or the fault it takes. -/
theorem exec_total (i : Instr) (s : State) :
    (∃ t, exec i s = .next t ∧ Effect s i t) ∨ ∃ c, exec i s = .next (takeFault c s) ∧ Raises s i c := by
  cases i with
  | add m1 m2 m3 => exact complete_storeResult rfl rfl
  | mul m1 m2 m3 => exact complete_storeResult rfl rfl
  | lessThan m1 m2 m3 => exact complete_storeResult rfl rfl
  | equals m1 m2 m3 => exact complete_storeResult rfl rfl
  | input m1 =>
    simp only [exec, execInput]
    cases hd : dst 1 m1 s with
    | error c => exact .inr ⟨c, by simp [bind, Except.bind], .operand (resolveAll_input.2 hd)⟩
    | ok d =>
      cases hq : s.inq with
      | nil => exact .inr ⟨.inputStarved, by simp [inPop, hq, bind, Except.bind], .starved hd hq⟩
      | cons v rest =>
        exact .inl ⟨_, by simp [inPop, hq, bind, Except.bind, pure, Except.pure], .input hd hq⟩
  | output m1 =>
    simp only [exec, execOutput]
    cases hv : val 1 m1 s with
    | error c => exact .inr ⟨c, by simp [bind, Except.bind], .operand (resolveFrom_oneSource.2 hv)⟩
    | ok v => exact .inl ⟨_, by simp [bind, Except.bind, pure, Except.pure], .output hv⟩
  | adjustBase m1 =>
    simp only [exec, execAdjustBase]
    cases hv : val 1 m1 s with
    | error c => exact .inr ⟨c, by simp [bind, Except.bind], .operand (resolveFrom_oneSource.2 hv)⟩
    | ok v => exact .inl ⟨_, by simp [bind, Except.bind, pure, Except.pure], .base hv⟩
  | jumpIfTrue m1 m2 =>
    simp only [exec, execJumpIfTrue]
    cases h : jumpWhen takenIfTrue m1 m2 s with
    | ok t =>
      obtain ⟨v1, v2, h1, h2, ⟨hp, n, rfl, rfl⟩ | ⟨hp, rfl⟩⟩ := jumpWhen_eq_ok h
      · exact .inl ⟨_, rfl, .takenIfTrue h1 h2 (by simpa [takenIfTrue] using hp)⟩
      · exact .inl ⟨_, rfl, .fallIfTrue h1 h2 (by simpa [takenIfTrue] using hp)⟩
    | error c =>
      rcases jumpWhen_eq_error.1 h with h | ⟨v1, v2, h1, h2, hp, hv, rfl⟩
      · exact .inr ⟨c, rfl, .operand h⟩
      · exact .inr ⟨_, rfl, .targetIfTrue h1 h2 (by simpa [takenIfTrue] using hp) hv⟩
  | jumpIfFalse m1 m2 =>
    simp only [exec, execJumpIfFalse]
    cases h : jumpWhen takenIfFalse m1 m2 s with
    | ok t =>
      obtain ⟨v1, v2, h1, h2, ⟨hp, n, rfl, rfl⟩ | ⟨hp, rfl⟩⟩ := jumpWhen_eq_ok h
      · exact .inl ⟨_, rfl, .takenIfFalse h1 h2 (by simpa [takenIfFalse] using hp)⟩
      · exact .inl ⟨_, rfl, .fallIfFalse h1 h2 (by simpa [takenIfFalse] using hp)⟩
    | error c =>
      rcases jumpWhen_eq_error.1 h with h | ⟨v1, v2, h1, h2, hp, hv, rfl⟩
      · exact .inr ⟨c, rfl, .operand h⟩
      · exact .inr ⟨_, rfl, .targetIfFalse h1 h2 (by simpa [takenIfFalse] using hp) hv⟩
  | halt => exact .inl ⟨_, rfl, .halt⟩

/-- The next state of a decoded instruction is its effect, or the state it began in with the fault taken. -/
theorem exec_next {i : Instr} {s t : State} (h : exec i s = .next t) :
    Effect s i t ∨ ∃ c, t = takeFault c s ∧ Raises s i c := by
  rcases exec_total i s with ⟨u, hu, he⟩ | ⟨c, hc, hr⟩
  · rw [hu, Host.Outcome.next.injEq] at h
    exact .inl (h ▸ he)
  · rw [hc, Host.Outcome.next.injEq] at h
    exact .inr ⟨c, h.symm, hr⟩

/-- An instruction that completes appends exactly the item it pushes (R111, R113). -/
theorem effect_outq {s t : State} {i : Instr} (h : Effect s i t) : t.outq = s.outq ++ outputOf i s := by
  cases h with
  | @store i d v hi h => cases i <;> simp_all [outputOf, Instr.length, Instr.operands]
  | output hv => simp [outputOf, hv]
  | _ => simp [outputOf]

/-- An instruction that faults pushes nothing. -/
theorem raises_outputOf {s : State} {i : Instr} {c : Cause} (h : Raises s i c) : outputOf i s = [] := by
  cases h with
  | @operand i c h =>
    cases i with
    | output m1 => simp [outputOf, resolveFrom_oneSource.1 h]
    | _ => rfl
  | _ => rfl

/-- The operand slots of an instruction are slots 1, 2 and 3. -/
theorem operands_length (i : Instr) : i.operands.length ≤ 3 := by
  cases i <;> simp [Instr.operands]

/-- A step that answers a next state ran the decoded instruction, or took `UnknownOpcode`, from a running core. -/
theorem step_next {s t : State} (h : step s = .next t) :
    s.status = .running ∧
      ((∃ i, decode (s.readCell s.ip) = .ok i ∧ exec i s = .next t) ∨
        (selectRow (splitWord (s.readCell s.ip)) = none ∧ t = takeFault (.unknownOpcode (s.readCell s.ip)) s)) := by
  unfold step at h
  cases hs : s.status with
  | running =>
    simp only [hs] at h
    refine ⟨rfl, ?_⟩
    cases hf : fetchDecode s with
    | ok i =>
      simp only [hf] at h
      exact .inl ⟨i, fetchDecode_eq_ok.1 hf, h⟩
    | error c =>
      obtain ⟨hn, rfl⟩ := fetchDecode_eq_error.1 hf
      simp only [hf, complete_error, Host.Outcome.next.injEq] at h
      exact .inr ⟨hn, h.symm⟩
  | halted => simp [hs] at h
  | faulted c => simp [hs] at h

/-- A step that answers a next state appends what it pushes and nothing else (R145). -/
theorem step_outq {s t : State} (h : step s = .next t) : t.outq = s.outq ++ pushedByStep s := by
  obtain ⟨hs, ⟨i, hd, he⟩ | ⟨hn, rfl⟩⟩ := step_next h
  · have hp : pushedByStep s = outputOf i s := by simp [pushedByStep, hs, fetchDecode_eq_ok.2 hd]
    rcases exec_next he with he | ⟨c, rfl, hr⟩
    · rw [hp, effect_outq he]
    · simp [hp, raises_outputOf hr]
  · simp [pushedByStep, hs, fetchDecode_eq_error.2 ⟨hn, rfl⟩]

/-- A core that is not running pushes nothing. -/
@[simp] theorem pushedByStep_of_stopped {s : State} (h : s.status ≠ .running) : pushedByStep s = [] := by
  cases hs : s.status <;> simp_all [pushedByStep]

end Sys2Proof.Machine
end

