-- ==== Sys2Proof/Laws/Host.lean ====
section
/-! SUPPORT. What the host's requests can do, said once: the step request, a host move, a sequence of moves, and a run as a
sequence of steps. -/

namespace Sys2Proof.Machine

/-! ## The step request and the run -/

/-- A step request of a running core is its step (R142). -/
theorem stepRequest_of_next {s t : State} (h : step s = .next t) : stepRequest s = (t, t.status) := by
  simp [stepRequest, h]

/-- A step request of a core that is not running changes nothing (R142). -/
theorem stepRequest_of_stopped {s : State} (h : s.status ≠ .running) : stepRequest s = (s, s.status) := by
  cases hs : s.status <;> simp_all [stepRequest, step]

/-- A step of a running core answers a next state. -/
theorem step_of_running {s : State} (h : s.status = .running) : ∃ t, step s = .next t := by
  simp only [step, h]
  cases fetchDecode s with
  | error c => exact ⟨_, rfl⟩
  | ok i => rcases exec_total i s with ⟨t, ht, -⟩ | ⟨c, ht, -⟩ <;> exact ⟨_, ht⟩

/-- Everything a step request can do: it makes the step of a running core, or leaves a core that is not running as it is. -/
theorem stepRequest_cases (s : State) :
    (∃ t, step s = .next t ∧ stepRequest s = (t, t.status)) ∨ (s.status ≠ .running ∧ stepRequest s = (s, s.status)) := by
  by_cases h : s.status = .running
  · obtain ⟨t, ht⟩ := step_of_running h
    exact .inl ⟨t, ht, stepRequest_of_next ht⟩
  · exact .inr ⟨h, stepRequest_of_stopped h⟩

@[simp] theorem runFor_zero (s : State) : runFor 0 s = s := rfl

/-- A run of a core that is not running changes nothing. -/
theorem runFor_of_stopped {s : State} (h : s.status ≠ .running) (n : Nat) : runFor n s = s := by
  cases n with
  | zero => rfl
  | succ n => cases hs : s.status <;> simp_all [runFor]

/-- A run of one step more makes a step request first; on a core that is not running that request changes nothing (R143). -/
theorem runFor_succ (n : Nat) (s : State) : runFor (n + 1) s = runFor n (stepRequest s).1 := by
  by_cases h : s.status = .running
  · simp [runFor, h]
  · rw [runFor_of_stopped h, stepRequest_of_stopped h, runFor_of_stopped h]

/-- A run of `n + m` steps is a run of `n` and then one of `m`. -/
theorem runFor_add (n m : Nat) (s : State) : runFor (n + m) s = runFor m (runFor n s) := by
  induction n generalizing s with
  | zero => simp
  | succ n ih => rw [show n + 1 + m = (n + m) + 1 by omega, runFor_succ, runFor_succ, ih]

/-- Two runs from one state that are over have ended in one state. -/
theorem runEnds_unique {s t u : State} (ht : RunEnds s t) (hu : RunEnds s u) : t = u := by
  obtain ⟨ht, n, rfl⟩ := ht
  obtain ⟨hu, m, rfl⟩ := hu
  rcases Nat.le_total n m with h | h
  · obtain ⟨k, rfl⟩ := Nat.exists_eq_add_of_le h
    rw [runFor_add, runFor_of_stopped ht]
  · obtain ⟨k, rfl⟩ := Nat.exists_eq_add_of_le h
    rw [runFor_add, runFor_of_stopped hu]

/-- A run that is over ended well or badly (R148). -/
theorem stopped_iff_ended (s : State) : s.status ≠ .running ↔ s.endedWell ∨ s.endedBadly := by
  cases hs : s.status <;> simp [State.endedWell, State.endedBadly, hs]

/-! ## Host moves -/

/-- A drain takes the oldest items, as many as there are at most (R145). -/
theorem drainOutput_eq_some {k : Nat} {s t : State} {q : List Int} :
    drainOutput k s = some (q, t) ↔ k ≤ s.outq.length ∧ q = s.outq.take k ∧ t = { s with outq := s.outq.drop k } := by
  simp only [drainOutput, Option.ite_none_right_eq_some, Option.some.injEq, Prod.mk.injEq]
  simp only [eq_comm (a := q), eq_comm (a := t)]

/-- Everything a host move can do: reset, step, push or drain (R146). -/
theorem hostMove_cases {m : HostMove} {x y : Session} (h : hostMove m x = some y) :
    (∃ p i, m = .reset p i ∧ y = ⟨hostReset p i, []⟩) ∨
      (m = .step ∧ y = ⟨(stepRequest x.core).1, x.drained⟩) ∨
      (∃ v, m = .pushInput v ∧ y = ⟨pushInput v x.core, x.drained⟩) ∨
      ∃ k, m = .drainOutput k ∧ k ≤ x.core.outq.length ∧
        y = ⟨{ x.core with outq := x.core.outq.drop k }, x.drained ++ x.core.outq.take k⟩ := by
  cases m with
  | reset p i => exact .inl ⟨p, i, rfl, (Option.some.inj h).symm⟩
  | step => exact .inr (.inl ⟨rfl, (Option.some.inj h).symm⟩)
  | pushInput v => exact .inr (.inr (.inl ⟨v, rfl, (Option.some.inj h).symm⟩))
  | drainOutput k =>
    simp only [hostMove, Option.map_eq_some_iff, Prod.exists] at h
    obtain ⟨q, t, hd, rfl⟩ := h
    obtain ⟨hk, rfl, rfl⟩ := drainOutput_eq_some.1 hd
    exact .inr (.inr (.inr ⟨k, rfl, hk, rfl⟩))

@[simp] theorem hostMoves_nil (x : Session) : hostMoves [] x = some x := rfl

/-- A session is its first move and then the rest. -/
theorem hostMoves_cons_eq_some {m : HostMove} {ms : List HostMove} {x z : Session} :
    hostMoves (m :: ms) x = some z ↔ ∃ y, hostMove m x = some y ∧ hostMoves ms y = some z := by
  simp [hostMoves, Option.bind_eq_some_iff]

/-- A session that begins with a reset is the rest from the core just reset, with nothing output yet (R141). -/
@[simp] theorem hostMoves_reset (p i : List Int) (ms : List HostMove) (x : Session) :
    hostMoves (.reset p i :: ms) x = hostMoves ms ⟨hostReset p i, []⟩ := rfl

@[simp] theorem suppliedItems_nil : suppliedItems [] = [] := rfl
@[simp] theorem suppliedItems_reset (p i : List Int) (ms : List HostMove) :
    suppliedItems (.reset p i :: ms) = suppliedItems ms := rfl
@[simp] theorem suppliedItems_step (ms : List HostMove) : suppliedItems (.step :: ms) = suppliedItems ms := rfl
@[simp] theorem suppliedItems_pushInput (v : Int) (ms : List HostMove) :
    suppliedItems (.pushInput v :: ms) = v :: suppliedItems ms := rfl
@[simp] theorem suppliedItems_drainOutput (k : Nat) (ms : List HostMove) :
    suppliedItems (.drainOutput k :: ms) = suppliedItems ms := rfl

@[simp] theorem totalOutput_mk (s : State) (q : List Int) : Session.totalOutput ⟨s, q⟩ = q ++ s.outq := rfl

/-- A drain leaves the total output as it is. -/
theorem totalOutput_drain (s : State) (q : List Int) (k : Nat) :
    Session.totalOutput ⟨{ s with outq := s.outq.drop k }, q ++ s.outq.take k⟩ = Session.totalOutput ⟨s, q⟩ := by
  simp

/-- A run of `n` steps is a session of `n` step requests and nothing else (R143). -/
theorem hostMoves_steps (n : Nat) (s : State) (q : List Int) :
    hostMoves (List.replicate n .step) ⟨s, q⟩ = some ⟨runFor n s, q⟩ := by
  induction n generalizing s with
  | zero => rfl
  | succ n ih =>
    rw [List.replicate_succ, hostMoves_cons_eq_some]
    exact ⟨_, rfl, by rw [ih, runFor_succ]⟩

end Sys2Proof.Machine
end

