-- ==== Sys2Proof/Laws/PerInstr.lean ====
section
/-! SUPPORT. The family EncodedOpcode: the opcode digits of an instruction's canonical word (R61, R68), one lemma per constructor. -/

namespace Sys2Proof.Laws

/-- The canonical word of a well-formed instruction is not negative, has no digit above 10^4, and its opcode digits are the
instruction's opcode (R61). -/
def EncodedOpcode.Statement (i : Instr) : Prop :=
  i.wf = true → 0 ≤ encode i ∧ encode i < 100000 ∧ encode i % 100 = i.opcode

/-- The canonical word of an opcode and three digits. -/
theorem EncodedOpcode.of_digits {op a b c : Int} (hop : 1 ≤ op ∧ op ≤ 99) (ha : 0 ≤ a ∧ a ≤ 9) (hb : 0 ≤ b ∧ b ≤ 9)
    (hc : 0 ≤ c ∧ c ≤ 9) :
    0 ≤ op + 100 * (a + 10 * (b + 10 * (c + 10 * 0))) ∧ op + 100 * (a + 10 * (b + 10 * (c + 10 * 0))) < 100000 ∧
      (op + 100 * (a + 10 * (b + 10 * (c + 10 * 0)))) % 100 = op := by
  omega

theorem EncodedOpcode.add (m1 m2 m3 : Mode) : EncodedOpcode.Statement (.add m1 m2 m3) := by
  intro h
  simp only [Instr.wf, Bool.and_eq_true] at h
  exact of_digits (opcode_bounds _) (digit_bounds h.1.1) (digit_bounds h.1.2) (digit_bounds h.2)

theorem EncodedOpcode.mul (m1 m2 m3 : Mode) : EncodedOpcode.Statement (.mul m1 m2 m3) := by
  intro h
  simp only [Instr.wf, Bool.and_eq_true] at h
  exact of_digits (opcode_bounds _) (digit_bounds h.1.1) (digit_bounds h.1.2) (digit_bounds h.2)

theorem EncodedOpcode.lessThan (m1 m2 m3 : Mode) : EncodedOpcode.Statement (.lessThan m1 m2 m3) := by
  intro h
  simp only [Instr.wf, Bool.and_eq_true] at h
  exact of_digits (opcode_bounds _) (digit_bounds h.1.1) (digit_bounds h.1.2) (digit_bounds h.2)

theorem EncodedOpcode.equals (m1 m2 m3 : Mode) : EncodedOpcode.Statement (.equals m1 m2 m3) := by
  intro h
  simp only [Instr.wf, Bool.and_eq_true] at h
  exact of_digits (opcode_bounds _) (digit_bounds h.1.1) (digit_bounds h.1.2) (digit_bounds h.2)

theorem EncodedOpcode.jumpIfTrue (m1 m2 : Mode) : EncodedOpcode.Statement (.jumpIfTrue m1 m2) := by
  intro h
  simp only [Instr.wf, Bool.and_eq_true] at h
  exact of_digits (c := 0) (opcode_bounds _) (digit_bounds h.1) (digit_bounds h.2) (by decide)

theorem EncodedOpcode.jumpIfFalse (m1 m2 : Mode) : EncodedOpcode.Statement (.jumpIfFalse m1 m2) := by
  intro h
  simp only [Instr.wf, Bool.and_eq_true] at h
  exact of_digits (c := 0) (opcode_bounds _) (digit_bounds h.1) (digit_bounds h.2) (by decide)

theorem EncodedOpcode.input (m1 : Mode) : EncodedOpcode.Statement (.input m1) := fun h =>
  of_digits (b := 0) (c := 0) (opcode_bounds _) (digit_bounds h) (by decide) (by decide)

theorem EncodedOpcode.output (m1 : Mode) : EncodedOpcode.Statement (.output m1) := fun h =>
  of_digits (b := 0) (c := 0) (opcode_bounds _) (digit_bounds h) (by decide) (by decide)

theorem EncodedOpcode.adjustBase (m1 : Mode) : EncodedOpcode.Statement (.adjustBase m1) := fun h =>
  of_digits (b := 0) (c := 0) (opcode_bounds _) (digit_bounds h) (by decide) (by decide)

theorem EncodedOpcode.halt : EncodedOpcode.Statement .halt := fun _ => by decide

end Sys2Proof.Laws
end

