-- ==== Sys2Proof/Tests/Slice0.lean ====
section
/-! SUPPORT. Tests: the well-formedness checks, words written out from the encoding, one or two single steps per instruction with
the expected results of 95_test_vectors.md, and a witness for the hypotheses of every statement that has any. -/

namespace Sys2Proof.Tests

open Sys2Proof Sys2Proof.Machine

/-! ## Well-formedness: a good term, and an ill-formed one for each check -/

theorem test_wf_invalid_digit : (Instr.add (.invalid 3) .immediate (.invalid 9)).wf = true := by decide
theorem test_illformed_add_first : (Instr.add (.invalid 2) .positional .positional).wf = false := by decide
theorem test_illformed_add_second : (Instr.add .positional (.invalid 10) .positional).wf = false := by decide
theorem test_illformed_add_third : (Instr.add .positional .positional (.invalid (-1))).wf = false := by decide
theorem test_illformed_mul : (Instr.mul .positional (.invalid 0) .relative).wf = false := by decide
theorem test_illformed_input : (Instr.input (.invalid 2)).wf = false := by decide
theorem test_illformed_output : (Instr.output (.invalid 10)).wf = false := by decide
theorem test_illformed_jumpIfTrue : (Instr.jumpIfTrue .immediate (.invalid 1)).wf = false := by decide
theorem test_illformed_jumpIfFalse : (Instr.jumpIfFalse (.invalid 1) .immediate).wf = false := by decide
theorem test_illformed_lessThan : (Instr.lessThan .relative .relative (.invalid 0)).wf = false := by decide
theorem test_illformed_equals : (Instr.equals .relative (.invalid 12) .relative).wf = false := by decide
theorem test_illformed_adjustBase : (Instr.adjustBase (.invalid (-3))).wf = false := by decide
theorem test_not_legal : (Mode.invalid 3).legal = false ∧ Mode.relative.legal = true := by decide

/-! ## Decoding: one word per constructor, its digits from rule R61 and 95_test_vectors.md 2.1 -/

theorem test_decode_add : decode 1001 = .ok (.add .positional .immediate .positional) := by decide
theorem test_decode_mul : decode 1002 = .ok (.mul .positional .immediate .positional) := by decide
theorem test_decode_input : decode 20203 = .ok (.input .relative) := by decide
theorem test_decode_output : decode 204 = .ok (.output .relative) := by decide
theorem test_decode_jumpIfTrue : decode 1105 = .ok (.jumpIfTrue .immediate .immediate) := by decide
theorem test_decode_jumpIfFalse : decode 1006 = .ok (.jumpIfFalse .positional .immediate) := by decide
theorem test_decode_lessThan : decode 21107 = .ok (.lessThan .immediate .immediate .relative) := by decide
theorem test_decode_equals : decode 1008 = .ok (.equals .positional .immediate .positional) := by decide
theorem test_decode_adjustBase : decode 109 = .ok (.adjustBase .immediate) := by decide
theorem test_decode_halt : decode 99999 = .ok .halt := by decide
theorem test_decode_high_digit : decode 100001 = .ok (.add .positional .positional .positional) := by decide
theorem test_decode_unknown : decode 12345 = .error (.unknownOpcode 12345) := by decide
theorem test_decode_negative : decode (-1) = .error (.unknownOpcode (-1)) := by decide
/-- `decode(-1101)` is `(-1,-1,-1,0)` (95_test_vectors.md 2.1). -/
theorem test_split_negative : splitWord (-1101) = ⟨-1, -1, -1, 0⟩ := by decide
theorem test_decodeTableWord : decodeTableWord 8 4 = some (.output .positional) := by decide
theorem test_encode : encode (.equals .immediate .positional .relative) = 20108 := by decide
/-- `mul 4, #3, 4` encodes as `1002, 4, 3, 4` (R73). -/
theorem test_assemble : assemble [.mul (.positional 4) (.immediate 3) (.positional 4)] = [1002, 4, 3, 4] := by decide
/-- The notation of the line whose cells are `204, -1` (R73). -/
theorem test_line_text : (AsmLine.output (.relative (-1))).text = "output @-1" := by decide

/-! ## Single steps, from 95_test_vectors.md -/

/-- The state after one step request. -/
def after (s : State) : State :=
  (stepRequest s).1

/-- 2.2: write at `len` grows by one. -/
theorem test_add_to_zero : finalMemory (after (hostReset [1101, -5, 5, 5, 99] [])) = [1101, -5, 5, 5, 99, 0] := by decide
/-- 2.2: an immediate destination writes slot 3. -/
theorem test_add_immediate_destination :
    finalMemory (after (hostReset [11101, 2, 3, 0, 99] [])) = [11101, 2, 3, 5, 99] := by decide
/-- S4. -/
theorem test_mul_mode_scenario : (after (hostReset [1002, 4, 3, 4, 33] [])).readCell 4 = 99 := by decide
/-- 2.2: no truncation. -/
theorem test_mul_exact :
    (after (hostReset [1102, 34915192, 34915192, 7, 4, 7, 99, 0] [])).readCell 7 = 1219070632396864 := by decide
/-- 2.2: signed comparison. -/
theorem test_lessThan_signed : (after (hostReset [1107, -1, 0, 5, 99, -1] [])).readCell 5 = 1 := by decide
/-- 2.2: equal is not less, and the cell is overwritten. -/
theorem test_lessThan_equal : (after (hostReset [1107, 3, 3, 5, 99, -1] [])).readCell 5 = 0 := by decide
/-- 2.2. -/
theorem test_equals_same : (after (hostReset [8, 5, 6, 7, 99, 3, 3, -1] [])).readCell 7 = 1 := by decide
/-- 2.2: 3 and -3 are unequal. -/
theorem test_equals_sign : (after (hostReset [1108, 3, -3, 5, 99, -1] [])).readCell 5 = 0 := by decide
/-- 2.3: one item consumed, a negative item, growth. -/
theorem test_input_one_item :
    finalMemory (after (hostReset [3, 3, 99] [-12, 5])) = [3, 3, 99, -12] ∧ (after (hostReset [3, 3, 99] [-12, 5])).inq = [5] := by
  decide
/-- 2.3: the address is checked before the pop. -/
theorem test_input_bad_address_keeps_item :
    (after (hostReset [3, -1, 99] [1])).inq = [1] ∧
      (after (hostReset [3, -1, 99] [1])).status = .faulted (.negativeAddress (-1)) := by decide
/-- 2.3: a read beyond the extent is 0 and does not grow the memory. -/
theorem test_output_beyond_extent :
    (after (hostReset [4, 100, 99] [])).outq = [0] ∧ (after (hostReset [4, 100, 99] [])).len = 3 := by decide
/-- S5, step 2: `rb = 7`, the operand -7 reads cell 0. -/
theorem test_output_relative :
    (after { hostReset [109, 7, 204, -7, 99] [] with ip := 2, rb := 7 }).outq = [109] := by decide
/-- 2.4: a negative condition is non-zero, the positional target is a cell's content. -/
theorem test_jumpIfTrue_taken : (after (hostReset [5, 7, 8, 99, 104, 7, 99, -3, 4] [])).ip = 4 := by decide
/-- 2.4: a taken jump to a negative target faults in the jump. -/
theorem test_jumpIfTrue_negative_target :
    (after (hostReset [1105, 1, -1, 99] [])).status = .faulted (.negativeAddress (-1)) ∧
      (after (hostReset [1105, 1, -1, 99] [])).ip = 0 := by decide
/-- 2.4: a target beyond the extent. -/
theorem test_jumpIfFalse_taken : (after (hostReset [1106, 0, 50] [])).ip = 50 := by decide
/-- 2.4: a negative target is harmless when the jump is not taken. -/
theorem test_jumpIfFalse_falls : (after (hostReset [1106, 1, -1, 99] [])).ip = 3 := by decide
/-- 2.5: a relative operand uses the old base. -/
theorem test_adjustBase_relative : (after { hostReset [109, 3, 209, 1, 99] [] with ip := 2, rb := 3 }).rb = 102 := by decide
/-- 2.5: a positional operand, a negative base. -/
theorem test_adjustBase_negative : (after (hostReset [9, 5, 99, 0, 0, -4] [])).rb = -4 := by decide
/-- 2.6: mode digits are ignored, the pointer stays. -/
theorem test_halt : (after (hostReset [1199] [])).status = .halted ∧ (after (hostReset [1199] [])).ip = 0 := by decide
/-- 2.7: a step of a halted core changes nothing. -/
theorem test_step_after_halt : after (after (hostReset [99] [])) = after (hostReset [99] []) := by decide

/-! ## Faults, from 95_test_vectors.md 2.6 and R165, R167 -/

theorem test_invalid_mode_before_address :
    (after (hostReset [1301, -1, 0, 0, 99] [])).status = .faulted (.invalidMode 1 3) := by decide
theorem test_invalid_mode_destination :
    (after (hostReset [31101, 1, 1, 0, 99] [])).status = .faulted (.invalidMode 3 3) := by decide
theorem test_unused_invalid_digit : (after (hostReset [3104, 5, 99] [])).outq = [5] := by decide
theorem test_first_operand_first : (after (hostReset [5, -1, -2, 99] [])).status = .faulted (.negativeAddress (-1)) := by decide
theorem test_empty_program : (after (hostReset [] [])).status = .faulted (.unknownOpcode 0) := by decide
theorem test_starved : (after (hostReset [3, 0, 99] [])).status = .faulted .inputStarved := by decide
theorem test_cause_codes :
    [Cause.unknownOpcode 0, .inputStarved, .negativeAddress (-1), .invalidMode 1 3].map Cause.code = [1, 2, 3, 4] := by decide

/-! ## The host and the transactions -/

/-- S2: memory `[5,6,7]`, a write of 9 at 6. -/
theorem test_growth_law : finalMemory ((hostReset [5, 6, 7] []).writeCell 6 9) = [5, 6, 7, 0, 0, 0, 9] := by decide
/-- 2.7: draining the one output item. -/
theorem test_drain :
    (drainOutput 1 { hostReset [99] [] with outq := [7] }).map (fun r => r.1) = some [7] ∧
      drainOutput 2 { hostReset [99] [] with outq := [7] } = none := by decide
/-- R145, R148: two outputs, one drained before the other is pushed; both are read back, in push order. -/
theorem test_total_output :
    (hostMoves [.reset [104, 7, 104, 8, 99] [], .step, .drainOutput 1, .step, .step] ⟨State.reset, [5]⟩).map Session.readBack =
      some { output := [7, 8], memory := [104, 7, 104, 8, 99], unread := [], ip := 4, rb := 0, status := .halted } := by decide
/-- R56, on `[1,5,6,7,99,20,22,0]`. -/
theorem test_transactions :
    stepTransactions (hostReset [1, 5, 6, 7, 99, 20, 22, 0] []) =
      [.read 0, .read 1, .read 5, .read 2, .read 6, .read 3, .write 7 42] := by decide
/-- R153: held only while the channel is empty. -/
theorem test_held : inputHeld (hostReset [3, 0, 99] []) = true ∧ inputHeld (hostReset [3, 0, 99] [7]) = false := by decide

/-! ## Witnesses: the hypotheses of each statement are met, clause by clause, at the edges of their ranges -/

/-- A program whose cells serve as operands of every sign: cell 1 is 5, cell 2 is 6, cell 3 is 7, cell 5 is 20, cell 6 is -22. -/
def sample : State :=
  hostReset [1, 5, 6, 7, 99, 20, -22, 0] [8, 9]

/-- The operand words 1, 2, 3 are all -1. -/
def negatives : State :=
  hostReset [1, -1, -1, -1, 99] []

/-- The operand words 1, 2, 3 are all 0. -/
def zeros : State :=
  hostReset [1, 0, 0, 0, 99] []

theorem witness_DecoderTakesTheDecimalDigits : (0 : Int) ≤ 0 ∧ (0 : Int) ≤ 99999 := by decide

theorem witness_OpcodeMapIsTheTable :
    (1 : Int) % 100 = 1 ∧ (102 : Int) % 100 = 2 ∧ (3 : Int) % 100 = 3 ∧ (4 : Int) % 100 = 4 ∧ (5 : Int) % 100 = 5 ∧
      (6 : Int) % 100 = 6 ∧ (7 : Int) % 100 = 7 ∧ (8 : Int) % 100 = 8 ∧ (9 : Int) % 100 = 9 ∧ (100099 : Int) % 100 = 99 ∧
      (0 : Int) % 100 ∉ ([1, 2, 3, 4, 5, 6, 7, 8, 9, 99] : List Int) ∧
      (10 : Int) % 100 ∉ ([1, 2, 3, 4, 5, 6, 7, 8, 9, 99] : List Int) ∧
      (98 : Int) % 100 ∉ ([1, 2, 3, 4, 5, 6, 7, 8, 9, 99] : List Int) := by decide

theorem witness_UnusedDigitsAreIgnored :
    ∃ (w u : Int) (i : Instr), 0 ≤ w ∧ 0 ≤ u ∧ w ≠ u ∧ decode w = .ok i ∧
      w % (100 * 10 ^ i.operands.length) = u % (100 * 10 ^ i.operands.length) :=
  ⟨20203, 100203, .input .relative, by decide⟩

theorem witness_DecodeOfEncode : (Instr.equals (.invalid 3) .relative (.invalid 9)).wf = true := by decide

theorem witness_EncodeOfDecode : decode 3104 = .ok (.output .immediate) := by decide

/-- One operand of each mark, and a line that names an instruction. -/
theorem witness_AssembledLineDecodes :
    (AsmOperand.positional 8).Marked 0 8 ∧ (AsmOperand.immediate (-1)).Marked 1 (-1) ∧ (AsmOperand.relative 0).Marked 2 0 ∧
      (AsmLine.add (.positional 8) (.immediate (-1)) (.positional 8)).instr = some (.add .positional .immediate .positional) :=
  ⟨.inl ⟨rfl, rfl⟩, .inr (.inl ⟨rfl, rfl⟩), .inr (.inr ⟨rfl, rfl⟩), by decide⟩

theorem witness_ReadGivesTheCellOrZero : (-1 : Int) < 0 ∧ (0 : Int) ≤ 7 ∧ (7 : Int) < sample.len ∧ (sample.len : Int) ≤ 8 := by
  decide

theorem witness_WriteStoresTheCell :
    sample.Inv ∧ (-1 : Int) < 0 ∧ (8 : Int) = (8 : Nat) ∧ sample.len ≤ 8 ∧ 7 < sample.len := by decide

theorem witness_MemoryGrowthLaw : sample.Inv ∧ sample.len ≤ 8 ∧ sample.len ≤ 20 ∧ 7 < sample.len := by decide

theorem witness_SourceOperandValue :
    raw 1 negatives < 0 ∧ raw 1 zeros = (0 : Nat) ∧ negatives.rb + raw 1 negatives < 0 ∧
      zeros.rb + raw 1 zeros = (0 : Nat) ∧ sample.len ≤ 8 := by decide

theorem witness_DestinationOperandAddress :
    raw 3 negatives < 0 ∧ raw 3 zeros = (0 : Nat) ∧ negatives.rb + raw 3 negatives < 0 ∧
      zeros.rb + raw 3 zeros = (0 : Nat) := by decide

theorem witness_ImmediateDestinationWritesItsSlot :
    sample.Inv ∧ val 1 .positional sample = .ok 20 ∧ val 2 .positional sample = .ok (-22) ∧ sample.inq = 8 :: [9] := by decide

/-- The hypotheses of the result clause that the four three-operand instructions share, in each mode of each operand. -/
theorem witness_threeOperands_result :
    sample.Inv ∧ val 1 .positional sample = .ok 20 ∧ val 2 .immediate sample = .ok 6 ∧ dst 3 .relative sample = .ok 7 ∧
      val 1 .relative sample = .ok 20 ∧ dst 3 .immediate sample = .ok 3 ∧ dst 3 .positional sample = .ok 7 := by decide

/-- The hypotheses of the fault clauses that the four share: each way operand 1, 2 and 3 can raise, the earlier ones good. -/
theorem witness_threeOperands_faults :
    negatives.Inv ∧ OperandRaises 1 (.invalid 3) negatives (.invalidMode 1 3) ∧
      OperandRaises 1 .positional negatives (.negativeAddress (-1)) ∧ val 1 .immediate negatives = .ok (-1) ∧
      OperandRaises 2 .relative negatives (.negativeAddress (-1)) ∧ val 2 .immediate negatives = .ok (-1) ∧
      OperandRaises 3 .positional negatives (.negativeAddress (-1)) ∧ OperandRaises 3 (.invalid 9) negatives (.invalidMode 3 9) :=
  ⟨by decide, .inl ⟨3, rfl, rfl⟩, .inr (.inl ⟨rfl, by decide, rfl⟩), by decide, .inr (.inr ⟨rfl, by decide, rfl⟩), by decide,
    .inr (.inl ⟨rfl, by decide, rfl⟩), .inl ⟨9, rfl, rfl⟩⟩

theorem witness_AddStoresTheSum :
    (0 : Int) ≤ 22201 ∧ (22201 : Int) % 100 = 1 ∧ ∃ s v1 v2 d, State.Inv s ∧ val 1 .positional s = .ok v1 ∧
      val 2 .positional s = .ok v2 ∧ dst 3 .positional s = .ok d :=
  ⟨by decide, by decide, sample, 20, -22, 7, by decide⟩

theorem witness_MulStoresTheProduct :
    (0 : Int) ≤ 1002 ∧ (1002 : Int) % 100 = 2 ∧ ∃ s v1 v2 d, State.Inv s ∧ val 1 .positional s = .ok v1 ∧
      val 2 .immediate s = .ok v2 ∧ dst 3 .positional s = .ok d :=
  ⟨by decide, by decide, sample, 20, 6, 7, by decide⟩

theorem witness_LessThanStoresOneOrZero :
    (0 : Int) ≤ 7 ∧ (7 : Int) % 100 = 7 ∧ ∃ s v1 v2 d, State.Inv s ∧ val 1 .relative s = .ok v1 ∧
      val 2 .positional s = .ok v2 ∧ dst 3 .immediate s = .ok d :=
  ⟨by decide, by decide, sample, 20, -22, 3, by decide⟩

theorem witness_EqualsStoresOneOrZero :
    (0 : Int) ≤ 1108 ∧ (1108 : Int) % 100 = 8 ∧ ∃ s v1 v2 d, State.Inv s ∧ val 1 .immediate s = .ok v1 ∧
      val 2 .immediate s = .ok v2 ∧ dst 3 .relative s = .ok d :=
  ⟨by decide, by decide, sample, 5, 6, 7, by decide⟩

theorem witness_InputStoresTheHeadItem :
    (0 : Int) ≤ 203 ∧ (203 : Int) % 100 = 3 ∧ sample.Inv ∧ dst 1 .positional sample = .ok 5 ∧ sample.inq = 8 :: [9] ∧
      OperandRaises 1 .positional negatives (.negativeAddress (-1)) ∧ OperandRaises 1 (.invalid 9) sample (.invalidMode 1 9) ∧
      dst 1 .immediate negatives = .ok 1 ∧ negatives.inq = [] :=
  ⟨by decide, by decide, by decide, by decide, by decide, .inr (.inl ⟨rfl, by decide, rfl⟩), .inl ⟨9, rfl, rfl⟩, by decide,
    by decide⟩

theorem witness_OutputAppendsTheValue :
    (0 : Int) ≤ 104 ∧ (104 : Int) % 100 = 4 ∧ val 1 .positional sample = .ok 20 ∧
      OperandRaises 1 .relative negatives (.negativeAddress (-1)) :=
  ⟨by decide, by decide, by decide, .inr (.inr ⟨rfl, by decide, rfl⟩)⟩

/-- A jump taken to 0, a jump not taken, a negative target, and a fault of each operand. -/
theorem witness_JumpIfTrueTakesNonZero :
    (0 : Int) ≤ 1105 ∧ (1105 : Int) % 100 = 5 ∧
      (val 1 .immediate sample = .ok 5 ∧ val 2 .relative zeros = .ok (1 : Nat) ∧ val 2 .immediate sample = .ok (6 : Nat)) ∧
      (val 1 .immediate zeros = .ok 0 ∧ val 2 .immediate zeros = .ok (0 : Nat)) ∧
      (val 1 .immediate negatives = .ok (-1) ∧ val 2 .immediate negatives = .ok (-1)) ∧
      OperandRaises 1 .positional negatives (.negativeAddress (-1)) ∧
      OperandRaises 2 .positional negatives (.negativeAddress (-1)) :=
  ⟨by decide, by decide, by decide, by decide, by decide, .inr (.inl ⟨rfl, by decide, rfl⟩), .inr (.inl ⟨rfl, by decide, rfl⟩)⟩

theorem witness_JumpIfFalseTakesZero :
    (0 : Int) ≤ 1006 ∧ (1006 : Int) % 100 = 6 ∧
      (val 1 .immediate zeros = .ok 0 ∧ val 2 .immediate zeros = .ok (0 : Nat)) ∧
      (val 1 .immediate sample = .ok 5 ∧ val 2 .immediate sample = .ok 6) ∧
      (val 1 .relative { negatives with rb := 6 } = .ok 0 ∧ val 2 .immediate { negatives with rb := 6 } = .ok (-1)) ∧
      OperandRaises 1 (.invalid 3) sample (.invalidMode 1 3) ∧ OperandRaises 2 (.invalid 4) sample (.invalidMode 2 4) :=
  ⟨by decide, by decide, by decide, by decide, by decide, .inl ⟨3, rfl, rfl⟩, .inl ⟨4, rfl, rfl⟩⟩

theorem witness_AdjustBaseAddsTheValue :
    (0 : Int) ≤ 109 ∧ (109 : Int) % 100 = 9 ∧ val 1 .immediate negatives = .ok (-1) ∧
      OperandRaises 1 .positional negatives (.negativeAddress (-1)) :=
  ⟨by decide, by decide, by decide, .inr (.inl ⟨rfl, by decide, rfl⟩)⟩

theorem witness_RelativeBaseScenario :
    raw 1 zeros = (0 : Nat) ∧ zeros.rb + raw 1 zeros = (0 : Nat) ∧
      exec (.adjustBase .immediate) sample = .next { sample with rb := 5, ip := 2 } ∧
      ({ sample with rb := 5, ip := 2 } : State).rb + raw 1 { sample with rb := 5, ip := 2 } = (12 : Nat) :=
  ⟨by decide, by decide, rfl, by decide⟩

theorem witness_HaltChangesOnlyTheStatus : (0 : Int) ≤ 99 ∧ (99 : Int) % 100 = 99 := by decide

theorem witness_StepRunsTheDecodedInstruction :
    sample.status = .running ∧ decode (sample.readCell sample.ip) = .ok (.add .positional .positional .positional) ∧
      State.reset.Inv ∧ decodeTableWord 16 109 = some (.adjustBase .immediate) := by decide

theorem witness_UnknownOpcodeIsTaken :
    (hostReset [-1] []).status = .running ∧ (hostReset [-1] []).readCell 0 < 0 ∧
      (hostReset [100] []).readCell 0 % 100 ∉ ([1, 2, 3, 4, 5, 6, 7, 8, 9, 99] : List Int) ∧
      State.reset.status = .running ∧ State.reset.len ≤ State.reset.ip := by decide

theorem witness_StoppedCoreRefusesTheStep :
    (after (hostReset [99] [])).status = .halted ∧ (after (hostReset [0] [])).status = .faulted (.unknownOpcode 0) := by decide

theorem witness_RunningCoreAlwaysSteps : sample.status = .running := by decide

/-- A step that stays running, a halt, and one fault of each kind: no row, an operand, a starved pop, a taken target. -/
theorem witness_StatusTransitions :
    (step sample = .next (after sample) ∧ (after sample).status = .running) ∧
      (step (hostReset [99] []) = .next (after (hostReset [99] [])) ∧ (after (hostReset [99] [])).status = .halted) ∧
      StepFaultsWith (hostReset [0] []) (.unknownOpcode 0) ∧ StepFaultsWith (hostReset [4, -1] []) (.negativeAddress (-1)) ∧
      StepFaultsWith (hostReset [3, 0] []) .inputStarved ∧
      StepFaultsWith (hostReset [1106, 0, -2] []) (.negativeAddress (-2)) :=
  ⟨⟨rfl, by decide⟩, ⟨rfl, by decide⟩, .inl ⟨0, by decide, rfl⟩,
    .inr ⟨.output .positional, by decide, .inl ⟨0, .source, .positional, rfl, .inr (.inl ⟨rfl, by decide, rfl⟩),
      fun _ _ _ _ h => absurd h (Nat.not_lt_zero _)⟩⟩,
    .inr ⟨.input .positional, by decide, .inr (.inl ⟨_, 0, rfl, by decide, rfl, rfl⟩)⟩,
    .inr ⟨.jumpIfFalse .immediate .immediate, by decide, .inr (.inr (.inr ⟨_, _, -2, rfl, by decide, by decide, by decide, rfl⟩))⟩⟩

theorem witness_LengthIsThePointerAdvance :
    decode 99999 = .ok .halt ∧ decode 8 = .ok (.equals .positional .positional .positional) ∧
      decode 1106 = .ok (.jumpIfFalse .immediate .immediate) ∧ decode 209 = .ok (.adjustBase .relative) ∧
      decode (sample.readCell sample.ip) = .ok (.add .positional .positional .positional) ∧ step sample = .next (after sample) ∧
      (after sample).status = .running :=
  ⟨by decide, by decide, by decide, by decide, by decide, rfl, by decide⟩

theorem witness_OnlyTheNamedCellChanges :
    sample.Inv ∧ exec (.add .positional .positional .positional) sample = .next (after sample) ∧
      storeOf (.add .positional .positional .positional) sample = some (7, -2) ∧ storeOf (.output .positional) sample = none :=
  ⟨by decide, rfl, by decide, by decide⟩

/-- `[1101,1,98,4,0]` stores 99 in cell 4, where the next fetch finds it (R105). -/
theorem witness_NextFetchSeesTheStore :
    ∃ s : State, s.Inv ∧ decode (s.readCell s.ip) = .ok (.add .immediate .immediate .positional) ∧ step s = .next (after s) ∧
      (after s).status = .running ∧ storeOf (.add .immediate .immediate .positional) s = some ((after s).ip, 99) ∧
      decode 99 = .ok .halt :=
  ⟨hostReset [1101, 1, 98, 4, 0] [], by decide, by decide, rfl, by decide, by decide, by decide⟩

theorem witness_FaultsArePrecise :
    step negatives = .next (after negatives) ∧ (after negatives).status = .faulted (.negativeAddress (-1)) := ⟨rfl, by decide⟩

/-- Operand 2 of an add raises and operand 1, immediate, does not. -/
theorem witness_FirstRaiseIsReported :
    (Instr.add .immediate .positional (.invalid 3)).operands[1]? = some (.source, .positional) ∧
      OperandRaises (1 + 1) .positional negatives (.negativeAddress (-1)) ∧
      ∀ j r m c, j < 1 → (Instr.add .immediate .positional (.invalid 3)).operands[j]? = some (r, m) →
        ¬ OperandRaises (j + 1) m negatives c := by
  refine ⟨by decide, .inr (.inl ⟨rfl, by decide, rfl⟩), fun j r m c hj h => ?_⟩
  obtain rfl : j = 0 := by omega
  simp only [Instr.operands, List.getElem?_cons_zero, Option.some.injEq, Prod.mk.injEq] at h
  obtain ⟨rfl, rfl⟩ := h
  simp [OperandRaises]

theorem witness_OnlyInputStarves :
    step (hostReset [3, 0, 99] []) = .next (after (hostReset [3, 0, 99] [])) ∧
      (after (hostReset [3, 0, 99] [])).status = .faulted .inputStarved := ⟨rfl, by decide⟩

/-- Each of the four places: a positional and a relative operand, and a taken jump of each kind. -/
theorem witness_NegativeAddressArisesOnlyFrom :
    ((after (hostReset [4, -1, 99] [])).status = .faulted (.negativeAddress (-1)) ∧
      (after (hostReset [203, -1, 99] [])).status = .faulted (.negativeAddress (-1))) ∧
    ((after (hostReset [1105, 1, -1, 99] [])).status = .faulted (.negativeAddress (-1)) ∧
      (after (hostReset [1106, 0, -1, 99] [])).status = .faulted (.negativeAddress (-1))) ∧
    step (hostReset [4, -1, 99] []) = .next (after (hostReset [4, -1, 99] [])) := ⟨by decide, by decide, rfl⟩

theorem witness_InvalidModeArisesOnlyFrom :
    step (hostReset [30001, 0, 0, 0, 99] []) = .next (after (hostReset [30001, 0, 0, 0, 99] [])) ∧
      (after (hostReset [30001, 0, 0, 0, 99] [])).status = .faulted (.invalidMode 3 3) := ⟨rfl, by decide⟩

theorem witness_ResetLeaves : 0 < [5, 6, 7].length ∧ 2 < [5, 6, 7].length ∧ [5, 6, 7].length ≤ 3 := by decide

theorem witness_OnlyAdjustBaseWritesTheBase :
    step (hostReset [109, 3] []) = .next (after (hostReset [109, 3] [])) ∧
      (after (hostReset [109, 3] [])).rb ≠ (hostReset [109, 3] []).rb ∧
      drainOutput 0 sample = some ([], sample) := ⟨rfl, by decide, by decide⟩

theorem witness_ExtentNeverDecreases :
    step sample = .next (after sample) ∧ (∀ p i, HostMove.pushInput 3 ≠ .reset p i) ∧
      hostMove (.pushInput 3) ⟨sample, []⟩ = some ⟨pushInput 3 sample, []⟩ := ⟨rfl, fun _ _ => by simp, rfl⟩

theorem witness_ChannelsMoveByOneItem :
    step sample = .next (after sample) ∧ step (hostReset [3, 3] [1]) = .next (after (hostReset [3, 3] [1])) ∧
      step (hostReset [104, 7] []) = .next (after (hostReset [104, 7] [])) := ⟨rfl, rfl, rfl⟩

theorem witness_StoppedCoreStaysStopped :
    ∃ x y : Session, x.core.status ≠ .running ∧ (∀ p i, HostMove.reset p i ∉ [HostMove.step, .pushInput 7]) ∧
      hostMoves [.step, .pushInput 7] x = some y :=
  ⟨⟨after (hostReset [99] []), []⟩, ⟨pushInput 7 (after (hostReset [99] [])), []⟩, by decide, fun _ _ => by simp, rfl⟩

theorem witness_PushedInputWaitsItsTurn :
    (step sample = .next (after sample) ∧ (after sample).status ≠ .faulted .inputStarved) ∧
      ((hostReset [3, 0, 99] []).Inv ∧ step (hostReset [3, 0, 99] []) = .next (after (hostReset [3, 0, 99] [])) ∧
        (after (hostReset [3, 0, 99] [])).status = .faulted .inputStarved) :=
  ⟨⟨rfl, by decide⟩, by decide, rfl, by decide⟩

theorem witness_OutputBacklogIsInvisible :
    (0 ≤ ({ sample with outq := [1, 2] } : State).outq.length ∧ 2 ≤ ({ sample with outq := [1, 2] } : State).outq.length) ∧
      step sample = .next (after sample) ∧ (∀ p i, HostMove.reset p i ∉ [HostMove.drainOutput 1, .step]) ∧
      (hostMoves [.drainOutput 1, .step] ⟨{ hostReset [104, 7] [] with outq := [6] }, [5]⟩).map Session.totalOutput =
        some [5, 6, 7] := ⟨by decide, rfl, fun _ _ => by simp, by decide⟩

/-- The outcome of two sessions of `[3,0,99]` that are given the item 7, one with the reset and one between two steps. -/
theorem witness_OutcomeDependsOnlyOnProgramAndTimelyItems :
    ∃ u v : Session, (∀ q k, HostMove.reset q k ∉ [HostMove.step, .step]) ∧
      (∀ q k, HostMove.reset q k ∉ [HostMove.pushInput 7, .step, .step, .step]) ∧
      hostMoves [.reset [3, 0, 99] [7], .step, .step] ⟨State.reset, []⟩ = some u ∧
      hostMoves [.reset [3, 0, 99] [], .pushInput 7, .step, .step, .step] ⟨sample, [1]⟩ = some v ∧
      [7] ++ suppliedItems [HostMove.step, .step] = [] ++ suppliedItems [HostMove.pushInput 7, .step, .step, .step] ∧
      u.core.status = .halted ∧ v.core.status = .halted :=
  ⟨_, _, fun _ _ => by simp, fun _ _ => by simp, rfl, rfl, by decide, by decide, by decide⟩

/-- Two sessions of `[3,0,3,1,99]` that are given 7 and 8 and starve for the 8, one given it before and one after a further
step request. -/
theorem witness_OutcomeDependsOnlyOnProgramAndTimelyItems_starved :
    ∃ u v : Session, (∀ q k, HostMove.reset q k ∉ [HostMove.step, .step, .pushInput 8]) ∧
      (∀ q k, HostMove.reset q k ∉ [HostMove.pushInput 7, .step, .step, .step, .pushInput 8]) ∧
      hostMoves [.reset [3, 0, 3, 1, 99] [7], .step, .step, .pushInput 8] ⟨State.reset, []⟩ = some u ∧
      hostMoves [.reset [3, 0, 3, 1, 99] [], .pushInput 7, .step, .step, .step, .pushInput 8] ⟨State.reset, []⟩ = some v ∧
      u.core.status = .faulted .inputStarved ∧ v.core.status = .faulted .inputStarved ∧
      u.core.inq.length = v.core.inq.length :=
  ⟨_, _, fun _ _ => by simp, fun _ _ => by simp, rfl, rfl, by decide, by decide, by decide⟩

theorem witness_BlockingPolicyDiffersOnlyWhenHeld :
    (hostReset [3, 0, 99] []).status = .running ∧ inputHeld (hostReset [3, 0, 99] []) = true ∧
      inputHeld (hostReset [3, -1, 99] []) = false := by decide

/-- A step that stores, one that an operand faults, one that its starved pop faults, and one whose word selects no row. -/
theorem witness_TransactionsEndInOneWrite :
    (step sample = .next (after sample) ∧ sample.Inv ∧ decode (sample.readCell sample.ip) =
        .ok (.add .positional .positional .positional) ∧ ∀ c, (after sample).status ≠ .faulted c) ∧
      (step negatives = .next (after negatives) ∧ (after negatives).status = .faulted (.negativeAddress (-1))) ∧
      (step (hostReset [3, 0] []) = .next (after (hostReset [3, 0] [])) ∧
        (after (hostReset [3, 0] [])).status = .faulted .inputStarved) ∧
      decode ((hostReset [0] []).readCell 0) = .error (.unknownOpcode 0) := by
  refine ⟨⟨rfl, by decide, by decide, fun c => ?_⟩, ⟨rfl, by decide⟩, ⟨rfl, by decide⟩, by decide⟩
  rw [show (after sample).status = .running by decide]
  simp

/-- Two states that differ in a cell the step does not read: cell 4 of `[104,7,99,0,55]`. -/
theorem witness_StepDependsOnlyOnTheCellsItReads :
    ∃ s s' : State, s ≠ s' ∧ s'.ip = s.ip ∧ s'.rb = s.rb ∧ s'.status = s.status ∧ s'.inq = s.inq ∧ s'.outq = s.outq ∧
      (∀ a, Txn.read a ∈ stepTransactions s → s'.readCell a = s.readCell a) ∧ step s = .next (after s) ∧
      step s' = .next (after s') := by
  refine ⟨hostReset [104, 7, 99, 0, 55] [], hostReset [104, 7, 99, 0, 56] [], by decide, rfl, rfl, rfl, rfl, rfl, fun a h => ?_,
    rfl, rfl⟩
  have ht : stepTransactions (hostReset [104, 7, 99, 0, 55] []) = [.read 0, .read 1] := by decide
  simp only [ht, List.mem_cons, List.not_mem_nil, or_false, Txn.read.injEq] at h
  rcases h with rfl | rfl <;> decide

theorem witness_StepKeepsTheInvariant : sample.Inv ∧ step sample = .next (after sample) := ⟨by decide, rfl⟩

theorem witness_HostMovesKeepTheInvariant :
    sample.Inv ∧ hostMoves [.pushInput 1, .step] ⟨sample, []⟩ = some ⟨after (pushInput 1 sample), []⟩ := ⟨by decide, rfl⟩

end Sys2Proof.Tests
end

/-! PROOFS. The relative base (10_state.md, R24): who changes it and by how much. -/

namespace Sys2Proof.Machine

/-- Of the effects of an instruction only that of adjust-base changes the relative base, by its operand's value (R24, R130). -/
theorem effect_rb_changed {s t : State} {i : Instr} (h : Effect s i t) (hrb : t.rb ≠ s.rb) :
    ∃ m v, i = .adjustBase m ∧ val 1 m s = .ok v ∧ t.rb = s.rb + v := by
  cases h with
  | @base m v hv => exact ⟨m, v, rfl, hv, rfl⟩
  | _ => exact absurd rfl hrb

/-- A step that changes the relative base ran an adjust-base and added its operand's value: a fault leaves the base. -/
theorem step_rb_changed {s t : State} (h : step s = .next t) (hrb : t.rb ≠ s.rb) :
    ∃ m v, decode (s.readCell s.ip) = .ok (.adjustBase m) ∧ val 1 m s = .ok v ∧ t.rb = s.rb + v := by
  obtain ⟨-, ⟨i, hd, he⟩ | ⟨-, rfl⟩⟩ := step_next h
  · rcases exec_next he with he | ⟨c, rfl, -⟩
    · obtain ⟨m, v, rfl, hv, hadd⟩ := effect_rb_changed he hrb
      exact ⟨m, v, hd, hv, hadd⟩
    · exact absurd (takeFault_rb s c) hrb
  · exact absurd (takeFault_rb s _) hrb

@[simp] theorem hostReset_rb (p i : List Int) : (hostReset p i).rb = 0 := rfl

/-- A drain leaves the relative base (R145). -/
theorem drainOutput_rb {k : Nat} {s t : State} {q : List Int} (h : drainOutput k s = some (q, t)) : t.rb = s.rb := by
  obtain ⟨-, -, rfl⟩ := drainOutput_eq_some.1 h
  rfl

/-- Settles O40: the step clause is `step_rb_changed`, by cases on what a step can do; the other clauses are the laws of reset,
the resolvers in relative mode, push and drain. -/
theorem onlyAdjustBaseWritesTheBase : Obligations.OnlyAdjustBaseWritesTheBase :=
  ⟨hostReset_rb, hostReset_rb [] [], fun i s => ⟨val_relative i s, dst_relative i s⟩, fun _ _ => step_rb_changed,
    fun v s => pushInput_rb s v, fun _ _ _ _ => drainOutput_rb⟩

end Sys2Proof.Machine

/-! PROOFS. The memory interface (R42, R43, R44): what a read answers, what a write changes and leaves, how the extent grows. -/

namespace Sys2Proof.Machine

/-- A cell inside the extent reads as the integer stored in it, whatever else the array lists. -/
theorem readCell_of_lt {s : State} {a : Nat} (h : a < s.len) : s.readCell a = s.mem.lookup a :=
  if_pos h

/-- A write raises `NegativeAddress` with the address, exactly for a negative one (R43). -/
theorem memWrite_eq_error {a v : Int} {s : State} {c : Cause} :
    memWrite a v s = .error c ↔ a < 0 ∧ c = .negativeAddress a := by
  rw [← checkAddr_eq_error]
  cases h : checkAddr a <;> simp [memWrite, h, bind, Except.bind, pure, Except.pure]

/-- A write at or beyond the extent moves it to the address plus one (R43). -/
theorem writeCell_len_of_le {s : State} {a : Nat} (v : Int) (h : s.len ≤ a) : (s.writeCell a v).len = a + 1 :=
  if_pos h

/-- A write inside the extent leaves it (R43). -/
theorem writeCell_len_of_lt {s : State} {a : Nat} (v : Int) (h : a < s.len) : (s.writeCell a v).len = s.len :=
  if_neg (Nat.not_le.2 h)

/-- A write beyond the extent leaves the cells between the extent and its address at 0 (R44). -/
theorem readCell_writeCell_gap {s : State} {a b : Nat} (v : Int) (h : s.mem.within s.len) (hb : s.len ≤ b) (hba : b < a) :
    (s.writeCell a v).readCell b = 0 := by
  rw [readCell_writeCell_other s v h hba.ne, readCell_beyond s hb]

/-- The memory contents after a write at or beyond the extent: the cells below the extent are the old ones, the cells up to the
address are zeros, and the last cell is the written one (R44). -/
theorem finalMemory_writeCell_of_le {s : State} {a : Nat} (v : Int) (hs : s.Inv) (h : s.len ≤ a) :
    finalMemory (s.writeCell a v) = finalMemory s ++ List.replicate (a - s.len) 0 ++ [v] := by
  obtain ⟨hwf, hin, -⟩ := hs
  have hold : (List.range s.len).map (s.writeCell a v).readCell = finalMemory s :=
    List.map_congr_left fun b hb =>
      readCell_writeCell_other s v hin (Nat.ne_of_lt (Nat.lt_of_lt_of_le (List.mem_range.1 hb) h))
  have hgap : ((List.range (a - s.len)).map (s.len + ·)).map (s.writeCell a v).readCell = List.replicate (a - s.len) 0 := by
    refine List.eq_replicate_iff.2 ⟨by simp, fun u hu => ?_⟩
    simp only [List.map_map, List.mem_map, List.mem_range, Function.comp_apply] at hu
    obtain ⟨k, hk, rfl⟩ := hu
    exact readCell_writeCell_gap v hin (by omega) (by omega)
  have hcells : List.range (a + 1) = List.range s.len ++ (List.range (a - s.len)).map (s.len + ·) ++ [a] := by
    rw [List.range_succ, ← List.range_add, Nat.add_sub_cancel' h]
  rw [finalMemory, writeCell_len_of_le v h, hcells, List.map_append, List.map_append, hold, hgap, List.map_singleton,
    readCell_writeCell_same s a v hwf]

/-- Settles O9: the write at a natural address is `writeCell`, and the laws of `writeCell` give each field. -/
theorem writeStoresTheCell : Obligations.WriteStoresTheCell := by
  rintro s a v ⟨hwf, hin, -⟩
  refine ⟨fun h => memWrite_eq_error.2 ⟨h, rfl⟩, ?_⟩
  rintro n rfl
  exact ⟨s.writeCell n v, memWrite_natCast n v s, readCell_writeCell_same s n v hwf,
    fun _ hb => readCell_writeCell_other s v hin hb, writeCell_len_of_le v, writeCell_len_of_lt v, rfl, rfl, rfl, rfl, rfl⟩

/-- Settles O10: one law of `writeCell` per clause; the final contents are `finalMemory_writeCell_of_le`. -/
theorem memoryGrowthLaw : Obligations.MemoryGrowthLaw := by
  intro s a v hs
  have ⟨hwf, hin, _⟩ := hs
  exact ⟨fun h => ⟨writeCell_len_of_le v h, fun _ hb hba => readCell_writeCell_gap v hin hb hba,
      readCell_writeCell_same s a v hwf, fun _ hb => readCell_beyond _ hb, finalMemory_writeCell_of_le v hs h⟩,
    writeCell_len_of_lt v⟩

/-- Settles O8: a negative address is refused by the address check; any other is a natural number, where the read is `readCell`. -/
theorem readGivesTheCellOrZero : Obligations.ReadGivesTheCellOrZero := by
  refine fun a s => ⟨fun h => memRead_eq_error.2 ⟨h, rfl⟩, fun h0 hlt => ?_, fun hle => ?_⟩
  · obtain ⟨n, rfl⟩ := Int.eq_ofNat_of_zero_le h0
    rw [memRead_natCast, readCell_of_lt (Int.ofNat_lt.1 hlt), Int.toNat_natCast]
  · obtain ⟨n, rfl⟩ := Int.eq_ofNat_of_zero_le (Int.le_trans (Int.natCast_nonneg s.len) hle)
    rw [memRead_natCast, readCell_beyond s (Int.ofNat_le.1 hle)]

end Sys2Proof.Machine

/-! PROOFS. The encoding (30_encoding.md, R62, R67, R68): the digits the decoder takes, the rows they select, the lengths. -/

namespace Sys2Proof

/-- On a non-negative word the division toward zero is the Euclidean one, so the decoder takes the word's decimal digits (R62). -/
theorem splitWord_of_nonneg {w : Int} (h : 0 ≤ w) :
    splitWord w = ⟨w % 100, w / 100 % 10, w / 1000 % 10, w / 10000 % 10⟩ := by
  have digit (k : Int) (hk : 0 ≤ k) : trem (tdiv w k) 10 = w / k % 10 := by
    rw [trem, tdiv, Int.tdiv_eq_ediv_of_nonneg h, Int.tmod_eq_emod_of_nonneg (Int.ediv_nonneg h hk)]
  rw [splitWord, digit 100 (by decide), digit 1000 (by decide), digit 10000 (by decide), trem,
    Int.tmod_eq_emod_of_nonneg h]

/-- A non-negative word decodes to the row that its two opcode digits select, with the modes its own digits give (R68). -/
theorem decode_of_row {w op : Int} {i : Instr} (h : 0 ≤ w) (hop : w % 100 = op)
    (hrow : selectRow ⟨op, w / 100 % 10, w / 1000 % 10, w / 10000 % 10⟩ = some i) : decode w = .ok i := by
  rw [decode_eq_ok, splitWord_of_nonneg h, hop, hrow]

/-- A non-negative word whose opcode digits are none of the ten opcodes is refused (R69). -/
theorem decode_of_unlisted {w : Int} (h : 0 ≤ w) (hop : w % 100 ∉ ([1, 2, 3, 4, 5, 6, 7, 8, 9, 99] : List Int)) :
    decode w = .error (.unknownOpcode w) :=
  decode_eq_error.2 ⟨(selectRow_eq_none _).2 (by rwa [splitWord_of_nonneg h]), rfl⟩

/-- A word that decodes has the opcode of its instruction as its two lowest digits (R68). -/
theorem decode_ok_opcode {w : Int} {i : Instr} (h : decode w = .ok i) : w % 100 = i.opcode := by
  rw [← selectRow_opcode (decode_eq_ok.1 h), splitWord_of_nonneg (decode_ok_nonneg h)]

/-- The length is a function of the opcode alone (R67). -/
theorem length_of_opcode (i : Instr) :
    (i.opcode ∈ ([1, 2, 7, 8] : List Int) → i.length = 4) ∧ (i.opcode ∈ ([5, 6] : List Int) → i.length = 3) ∧
      (i.opcode ∈ ([3, 4, 9] : List Int) → i.length = 2) ∧ (i.opcode = 99 → i.length = 1) := by
  cases i <;> simp [Instr.opcode, Instr.length, Instr.operands]

/-- Settles O1: the digits of a non-negative word are `splitWord_of_nonneg`; the rule's two words are evaluated. -/
theorem decoderTakesTheDecimalDigits : Obligations.DecoderTakesTheDecimalDigits :=
  ⟨fun w hw => by simp [splitWord_of_nonneg hw], by decide, by decide⟩

/-- Settles O2: for each opcode the selected row is read off `selectRow`; the operands and lengths of the rows are the model's
own definitions. -/
theorem opcodeMapIsTheTable : Obligations.OpcodeMapIsTheTable :=
  ⟨fun _ hw => ⟨(decode_of_row hw · rfl), (decode_of_row hw · rfl), (decode_of_row hw · rfl), (decode_of_row hw · rfl),
      (decode_of_row hw · rfl), (decode_of_row hw · rfl), (decode_of_row hw · rfl), (decode_of_row hw · rfl),
      (decode_of_row hw · rfl), (decode_of_row hw · rfl), decode_of_unlisted hw⟩,
    fun a b c => by and_intros <;> rfl⟩

end Sys2Proof

namespace Sys2Proof.Machine

/-- An instruction that completes and leaves the core running has moved the pointer by its length, unless it is a jump whose
condition holds, which has moved it to the value of its second operand (R67, R120, R121). -/
theorem effect_ip {s t : State} {i : Instr} (h : Effect s i t) (ht : t.status = .running) :
    t.ip = s.ip + i.length ∨
      (∃ m1 m2 v1, i = .jumpIfTrue m1 m2 ∧ val 1 m1 s = .ok v1 ∧ v1 ≠ 0 ∧ val 2 m2 s = .ok t.ip) ∨
      (∃ m1 m2, i = .jumpIfFalse m1 m2 ∧ val 1 m1 s = .ok 0 ∧ val 2 m2 s = .ok t.ip) := by
  cases h with
  | store hlen _ => exact .inl (by simp [hlen])
  | takenIfTrue h1 h2 hp => exact .inr (.inl ⟨_, _, _, rfl, h1, hp, h2⟩)
  | takenIfFalse h1 h2 hp => exact .inr (.inr ⟨_, _, rfl, hp ▸ h1, h2⟩)
  | halt => exact absurd ht (by simp)
  | _ => exact .inl rfl

/-- Settles O31: the lengths are `length_of_opcode`; a step that leaves the core running took no fault, so it had the effect
of the decoded instruction, and `effect_ip` says where the pointer is. -/
theorem lengthIsThePointerAdvance : Obligations.LengthIsThePointerAdvance := by
  refine ⟨fun w i hd => decode_ok_opcode hd ▸ length_of_opcode i, fun s t i hd hstep ht => ?_⟩
  obtain ⟨-, ⟨j, hj, he⟩ | ⟨-, rfl⟩⟩ := step_next hstep
  · obtain rfl : j = i := Except.ok.inj (hj.symm.trans hd)
    rcases exec_next he with he | ⟨c, rfl, -⟩
    · exact effect_ip he ht
    · exact absurd ht (by simp)
  · exact absurd ht (by simp)

end Sys2Proof.Machine

/-! PROOFS. The operand resolver (R84, R89): the value a source has in each mode, and the cell a result is stored in. -/

namespace Sys2Proof.Machine

/-- A write followed by the advance past an instruction of `n` cells has the frame of an instruction that stores. -/
theorem advance_writeCell_storedAndAdvanced {s : State} (hs : s.Inv) (d : Nat) (v : Int) (n : Nat) :
    StoredAndAdvanced d v n s (advance n (s.writeCell d v)) := by
  obtain ⟨hwf, hin, -⟩ := hs
  exact ⟨readCell_writeCell_same s d v hwf, writeCell_onlyCell s d v hin, rfl, rfl, rfl, rfl, rfl⟩

/-- A three-operand meaning whose operands resolve completes, its result stored in the cell the destination names (R88). -/
theorem complete_storeResult_of_ok {f : Int → Int → Int} {m1 m2 m3 : Mode} {s : State} {v1 v2 : Int} {d : Nat} (hs : s.Inv)
    (h1 : val 1 m1 s = .ok v1) (h2 : val 2 m2 s = .ok v2) (h3 : dst 3 m3 s = .ok d) :
    ∃ t, complete s (storeResult f m1 m2 m3 s) = .next t ∧ StoredAndAdvanced d (f v1 v2) 4 s t :=
  ⟨_, by rw [storeResult_of_ok h1 h2 h3, complete_ok], advance_writeCell_storedAndAdvanced hs d _ 4⟩

/-- An input whose destination resolves and that finds an item completes: the item leaves the channel and is stored in the cell
the destination names (R112). -/
theorem exec_input_of_ok {m : Mode} {s : State} {v : Int} {rest : List Int} {d : Nat} (hs : s.Inv)
    (hd : dst 1 m s = .ok d) (hq : s.inq = v :: rest) :
    ∃ t, exec (.input m) s = .next t ∧ StoredAndAdvanced d v 2 (setInput rest s) t := by
  have hpop : inPop s = .ok (v, setInput rest s) := inPop_eq_ok.2 ⟨rest, hq, rfl⟩
  refine ⟨_, ?_, advance_writeCell_storedAndAdvanced (s := setInput rest s) hs d v 2⟩
  simp [exec, execInput, hd, hpop, bind, Except.bind, pure, Except.pure]

/-- Settles O14: an immediate destination names its slot, so each meaning stores there what it stores in any destination. -/
theorem immediateDestinationWritesItsSlot : Obligations.ImmediateDestinationWritesItsSlot := by
  refine fun s hs => ⟨fun i => dst_immediate i s, fun m1 m2 v1 v2 h1 h2 => ?_, fun v rest hq => ?_⟩
  · have stores (f : Int → Int → Int) :
        ∃ t, complete s (storeResult f m1 m2 .immediate s) = .next t ∧ t.readCell (s.ip + 3) = f v1 v2 :=
      (complete_storeResult_of_ok hs h1 h2 (dst_immediate 3 s)).imp fun _ ⟨ht, hcell, _⟩ => ⟨ht, hcell⟩
    exact ⟨stores _, stores _, stores lessThanWord, stores equalsWord⟩
  · obtain ⟨t, ht, hcell, -⟩ := exec_input_of_ok hs (dst_immediate 1 s) hq
    exact ⟨t, ht, hcell⟩

/-- Settles O11: a positional or relative source is the read at the address its mode computes, and `memRead` answers the cell at
a natural address and refuses a negative one. -/
theorem sourceOperandValue : Obligations.SourceOperandValue :=
  fun i s => ⟨fun h => memRead_eq_error.2 ⟨h, rfl⟩, fun n h => memRead_eq_ok.2 ⟨n, h, rfl⟩, val_immediate i s,
    fun h => memRead_eq_error.2 ⟨h, rfl⟩, fun n h => memRead_eq_ok.2 ⟨n, h, rfl⟩, fun _ => readCell_beyond s⟩

end Sys2Proof.Machine

/-! PROOFS. add, mul, less-than, equals (41_arithmetic.md, R100 to R103): one law of the shape the four share, used four times. -/

namespace Sys2Proof

/-- A word whose opcode digits select a row of three operands decodes to that row, with its own three mode digits (R62, R68). -/
theorem decode_threeOperands {op : Int} {row : Mode → Mode → Mode → Instr}
    (hrow : ∀ a b c, selectRow ⟨op, a, b, c⟩ = some (row (.ofDigit a) (.ofDigit b) (.ofDigit c)))
    (w : Int) (hw : 0 ≤ w) (hop : w % 100 = op) :
    ∃ a b c, decode w = .ok (row a b c) ∧
      a.digit = w / 100 % 10 ∧ b.digit = w / 1000 % 10 ∧ c.digit = w / 10000 % 10 :=
  ⟨_, _, _, decode_of_row hw hop (hrow _ _ _), digit_ofDigit _, digit_ofDigit _, digit_ofDigit _⟩

end Sys2Proof

namespace Sys2Proof.Machine

section
variable {f : Int → Int → Int} {m1 m2 m3 : Mode} {s : State} {v1 v2 : Int} {c : Cause}

/-- What operand 1 raises, a three-operand meaning raises (R87). -/
theorem storeResult_of_raises_first (h : OperandRaises 1 m1 s c) : storeResult f m1 m2 m3 s = .error c :=
  storeResult_eq_error.2 (resolveFrom_cons_error.2 (.inl (resolveOperand_eq_error.2 h)))

/-- Where operand 1 resolves, what operand 2 raises is raised (R87). -/
theorem storeResult_of_raises_second (h1 : val 1 m1 s = .ok v1) (h : OperandRaises 2 m2 s c) :
    storeResult f m1 m2 m3 s = .error c := by
  have h2 : val 2 m2 s = .error c := val_eq_error.2 h
  simp [storeResult, h1, h2, bind, Except.bind]

/-- Where both sources resolve, what the destination raises is raised (R87). -/
theorem storeResult_of_raises_third (h1 : val 1 m1 s = .ok v1) (h2 : val 2 m2 s = .ok v2) (h : OperandRaises 3 m3 s c) :
    storeResult f m1 m2 m3 s = .error c := by
  have h3 : dst 3 m3 s = .error c := dst_eq_error.2 h
  simp [storeResult, h1, h2, h3, bind, Except.bind]

end

/-- A three-operand meaning stores its result with the frame of a store, or takes the fault of its first operand that raises,
leaving all but the status (R87, R88, R166). -/
theorem complete_storeResult_clauses (f : Int → Int → Int) (m1 m2 m3 : Mode) (s : State) (hs : s.Inv) :
    (∀ v1 v2 d, val 1 m1 s = .ok v1 → val 2 m2 s = .ok v2 → dst 3 m3 s = .ok d →
      ∃ t, complete s (storeResult f m1 m2 m3 s) = .next t ∧ StoredAndAdvanced d (f v1 v2) 4 s t) ∧
    (∀ c, OperandRaises 1 m1 s c → complete s (storeResult f m1 m2 m3 s) = .next (takeFault c s)) ∧
    (∀ v1 c, val 1 m1 s = .ok v1 → OperandRaises 2 m2 s c →
      complete s (storeResult f m1 m2 m3 s) = .next (takeFault c s)) ∧
    (∀ v1 v2 c, val 1 m1 s = .ok v1 → val 2 m2 s = .ok v2 → OperandRaises 3 m3 s c →
      complete s (storeResult f m1 m2 m3 s) = .next (takeFault c s)) :=
  ⟨fun _ _ _ => complete_storeResult_of_ok hs,
    fun _ h => congrArg (complete s) (storeResult_of_raises_first h),
    fun _ _ h1 h => congrArg (complete s) (storeResult_of_raises_second h1 h),
    fun _ _ _ h1 h2 h => congrArg (complete s) (storeResult_of_raises_third h1 h2 h)⟩

/-- Settles O15: opcode 1 selects the row of add, and add is the shared shape with the exact sum. -/
theorem addStoresTheSum : Obligations.AddStoresTheSum :=
  ⟨decode_threeOperands fun _ _ _ => rfl, complete_storeResult_clauses fun a b => a + b⟩

/-- Settles O16: opcode 2 selects the row of mul, and mul is the shared shape with the exact product. -/
theorem mulStoresTheProduct : Obligations.MulStoresTheProduct :=
  ⟨decode_threeOperands fun _ _ _ => rfl, complete_storeResult_clauses fun a b => a * b⟩

/-- Settles O17: opcode 7 selects the row of less-than, and less-than is the shared shape with `lessThanWord`. -/
theorem lessThanStoresOneOrZero : Obligations.LessThanStoresOneOrZero :=
  ⟨decode_threeOperands fun _ _ _ => rfl, complete_storeResult_clauses lessThanWord⟩

/-- Settles O18: opcode 8 selects the row of equals, and equals is the shared shape with `equalsWord`. -/
theorem equalsStoresOneOrZero : Obligations.EqualsStoresOneOrZero :=
  ⟨decode_threeOperands fun _ _ _ => rfl, complete_storeResult_clauses equalsWord⟩

end Sys2Proof.Machine

/-! PROOFS. input and output (42_io.md, R112, R113): one item in, one item out, and the faults that move none. -/

namespace Sys2Proof

/-- A word whose opcode digits select a row of one operand decodes to that row, with its own mode digit (R62, R68). -/
theorem decode_oneOperand {op : Int} {row : Mode → Instr} (hrow : ∀ a b c, selectRow ⟨op, a, b, c⟩ = some (row (.ofDigit a)))
    (w : Int) (hw : 0 ≤ w) (hop : w % 100 = op) : ∃ a, decode w = .ok (row a) ∧ a.digit = w / 100 % 10 :=
  ⟨_, decode_of_row hw hop (hrow _ _ _), digit_ofDigit _⟩

end Sys2Proof

namespace Sys2Proof.Machine

section
variable {m : Mode} {s : State} {c : Cause}

/-- What the destination raises, an input takes before the pop, so the item stays in the channel (R85, R112). -/
theorem exec_input_of_raises (h : OperandRaises 1 m s c) : exec (.input m) s = .next (takeFault c s) := by
  have hd : dst 1 m s = .error c := dst_eq_error.2 h
  simp [exec, execInput, hd, bind, Except.bind]

/-- An input whose destination resolves and that finds the channel empty starves (R110, R112). -/
theorem exec_input_of_empty {d : Nat} (hd : dst 1 m s = .ok d) (hq : s.inq = []) :
    exec (.input m) s = .next (takeFault .inputStarved s) := by
  have hpop : inPop s = .error .inputStarved := inPop_eq_error.2 ⟨hq, rfl⟩
  simp [exec, execInput, hd, hpop, bind, Except.bind]

/-- An output whose source resolves appends the value and moves past its two cells (R113). -/
theorem exec_output_of_ok {v : Int} (hv : val 1 m s = .ok v) : exec (.output m) s = .next (advance 2 (outPush v s)) := by
  simp [exec, execOutput, hv, bind, Except.bind, pure, Except.pure]

/-- What the source raises, an output takes, and it pushes nothing (R113, R166). -/
theorem exec_output_of_raises (h : OperandRaises 1 m s c) : exec (.output m) s = .next (takeFault c s) := by
  have hv : val 1 m s = .error c := val_eq_error.2 h
  simp [exec, execOutput, hv, bind, Except.bind]

end

/-- Settles O19: opcode 3 selects the row of input. A completed input has the frame of a store that began in the state without
the head item, which differs from the first state in the channel only; the faults are taken in the first state itself. -/
theorem inputStoresTheHeadItem : Obligations.InputStoresTheHeadItem := by
  refine ⟨decode_oneOperand fun _ _ _ => rfl, fun m s hs =>
    ⟨fun d v rest hd hq => ?_, fun _ => exec_input_of_raises, fun _ => exec_input_of_empty⟩⟩
  obtain ⟨t, ht, hcell, honly, hip, hrb, hstatus, hinq, houtq⟩ := exec_input_of_ok hs hd hq
  exact ⟨t, ht, hcell, honly, hip, hinq, hrb, hstatus, houtq⟩

/-- Settles O20: opcode 4 selects the row of output, and an output pushes its source's value or takes what the source raises. -/
theorem outputAppendsTheValue : Obligations.OutputAppendsTheValue :=
  ⟨decode_oneOperand fun _ _ _ => rfl, fun _ _ => ⟨fun _ => exec_output_of_ok, fun _ => exec_output_of_raises⟩⟩

end Sys2Proof.Machine

/-! PROOFS. jump-if-true and jump-if-false (43_control_flow.md, R120 to R122): one law of the shape the two share, used twice. -/

namespace Sys2Proof

/-- A word whose opcode digits select a row of two operands decodes to that row, with its own two mode digits (R62, R68). -/
theorem decode_twoOperands {op : Int} {row : Mode → Mode → Instr}
    (hrow : ∀ a b c, selectRow ⟨op, a, b, c⟩ = some (row (.ofDigit a) (.ofDigit b)))
    (w : Int) (hw : 0 ≤ w) (hop : w % 100 = op) :
    ∃ a b, decode w = .ok (row a b) ∧ a.digit = w / 100 % 10 ∧ b.digit = w / 1000 % 10 :=
  ⟨_, _, decode_of_row hw hop (hrow _ _ _), digit_ofDigit _, digit_ofDigit _⟩

end Sys2Proof

namespace Sys2Proof.Machine

@[simp] theorem takenIfTrue_eq_true {v : Int} : takenIfTrue v = true ↔ v ≠ 0 := decide_eq_true_iff
@[simp] theorem takenIfTrue_eq_false {v : Int} : takenIfTrue v = false ↔ v = 0 := decide_eq_false_iff_not.trans not_not
@[simp] theorem takenIfFalse_eq_true {v : Int} : takenIfFalse v = true ↔ v = 0 := decide_eq_true_iff
@[simp] theorem takenIfFalse_eq_false {v : Int} : takenIfFalse v = false ↔ v ≠ 0 := decide_eq_false_iff_not

section
variable {p : Int → Bool} {m1 m2 : Mode} {s : State} {v1 v2 : Int} {c : Cause}

/-- A jump whose condition holds and whose target is a cell address goes there (R120, R121). -/
theorem jumpWhen_of_taken {n : Nat} (h1 : val 1 m1 s = .ok v1) (h2 : val 2 m2 s = .ok n) (hp : p v1 = true) :
    jumpWhen p m1 m2 s = .ok (setPointer n s) := by
  rw [jumpWhen_of_ok h1 h2, if_pos hp, jumpTo_eq_ok.2 ⟨n, rfl, rfl⟩]

/-- A jump whose condition fails moves past its three cells, whatever its target (R120, R121). -/
theorem jumpWhen_of_not_taken (h1 : val 1 m1 s = .ok v1) (h2 : val 2 m2 s = .ok v2) (hp : p v1 = false) :
    jumpWhen p m1 m2 s = .ok (advance 3 s) := by
  simp [jumpWhen_of_ok h1 h2, hp]

/-- A jump whose condition holds raises `NegativeAddress` with a negative target (R122). -/
theorem jumpWhen_of_negative_target (h1 : val 1 m1 s = .ok v1) (h2 : val 2 m2 s = .ok v2) (hp : p v1 = true) (hv : v2 < 0) :
    jumpWhen p m1 m2 s = .error (.negativeAddress v2) :=
  jumpWhen_eq_error.2 (.inr ⟨v1, v2, h1, h2, hp, hv, rfl⟩)

/-- What operand 1 raises, a jump raises (R87). -/
theorem jumpWhen_of_raises_first (h : OperandRaises 1 m1 s c) : jumpWhen p m1 m2 s = .error c :=
  jumpWhen_eq_error.2 (.inl (resolveFrom_cons_error.2 (.inl (resolveOperand_eq_error.2 h))))

/-- Where operand 1 resolves, what operand 2 raises is raised, whether or not the condition holds (R87). -/
theorem jumpWhen_of_raises_second (h1 : val 1 m1 s = .ok v1) (h : OperandRaises 2 m2 s c) :
    jumpWhen p m1 m2 s = .error c :=
  jumpWhen_eq_error.2 (.inl (resolveFrom_cons_error.2 (.inr
    ⟨resolveOperand_source.2 ⟨v1, h1⟩, resolveFrom_cons_error.2 (.inl (resolveOperand_eq_error.2 h))⟩)))

end

/-- A jump taken where `T` holds of its first operand and not taken where `F` does goes to its target or past itself, or takes
the fault of its first operand that raises or of the negative target, leaving all but the status (R87, R120 to R122, R166). -/
theorem complete_jumpWhen_clauses {p : Int → Bool} {T F : Int → Prop} (hT : ∀ {v}, p v = true ↔ T v)
    (hF : ∀ {v}, p v = false ↔ F v) (m1 m2 : Mode) (s : State) :
    (∀ v1 (n : Nat), val 1 m1 s = .ok v1 → val 2 m2 s = .ok n → T v1 →
      complete s (jumpWhen p m1 m2 s) = .next (setPointer n s)) ∧
    (∀ v1 v2, val 1 m1 s = .ok v1 → val 2 m2 s = .ok v2 → F v1 →
      complete s (jumpWhen p m1 m2 s) = .next (advance 3 s)) ∧
    (∀ v1 v2, val 1 m1 s = .ok v1 → val 2 m2 s = .ok v2 → T v1 → v2 < 0 →
      complete s (jumpWhen p m1 m2 s) = .next (takeFault (.negativeAddress v2) s)) ∧
    (∀ c, OperandRaises 1 m1 s c → complete s (jumpWhen p m1 m2 s) = .next (takeFault c s)) ∧
    (∀ v1 c, val 1 m1 s = .ok v1 → OperandRaises 2 m2 s c →
      complete s (jumpWhen p m1 m2 s) = .next (takeFault c s)) :=
  ⟨fun _ _ h1 h2 ht => congrArg (complete s) (jumpWhen_of_taken h1 h2 (hT.2 ht)),
    fun _ _ h1 h2 hf => congrArg (complete s) (jumpWhen_of_not_taken h1 h2 (hF.2 hf)),
    fun _ _ h1 h2 ht hv => congrArg (complete s) (jumpWhen_of_negative_target h1 h2 (hT.2 ht) hv),
    fun _ h => congrArg (complete s) (jumpWhen_of_raises_first h),
    fun _ _ h1 h => congrArg (complete s) (jumpWhen_of_raises_second h1 h)⟩

/-- Settles O21: opcode 5 selects the row of jump-if-true, and jump-if-true is the shared shape, taken on non-zero. -/
theorem jumpIfTrueTakesNonZero : Obligations.JumpIfTrueTakesNonZero :=
  ⟨decode_twoOperands fun _ _ _ => rfl, complete_jumpWhen_clauses takenIfTrue_eq_true takenIfTrue_eq_false⟩

/-- Settles O22: opcode 6 selects the row of jump-if-false, and jump-if-false is the shared shape, taken on zero. -/
theorem jumpIfFalseTakesZero : Obligations.JumpIfFalseTakesZero :=
  ⟨decode_twoOperands fun _ _ _ => rfl, complete_jumpWhen_clauses takenIfFalse_eq_true takenIfFalse_eq_false⟩

end Sys2Proof.Machine

/-! PROOFS. adjust-base (44_relative_base.md, R130, R132): the base grows by the operand's value, and where a relative operand
then resolves. -/

namespace Sys2Proof.Machine

section
variable {m : Mode} {s : State} {c : Cause} {v : Int}

/-- An adjust-base whose source resolves adds the value to the base and moves past its two cells (R130). -/
theorem exec_adjustBase_of_ok (hv : val 1 m s = .ok v) : exec (.adjustBase m) s = .next (advance 2 (addToBase v s)) := by
  simp [exec, execAdjustBase, hv, bind, Except.bind, pure, Except.pure]

/-- What the source raises, an adjust-base takes, and it leaves the base (R130, R166). -/
theorem exec_adjustBase_of_raises (h : OperandRaises 1 m s c) : exec (.adjustBase m) s = .next (takeFault c s) := by
  have hv : val 1 m s = .error c := val_eq_error.2 h
  simp [exec, execAdjustBase, hv, bind, Except.bind]

/-- An adjust-base whose source resolves answers a state whose base has grown by the value (R130, R132). -/
theorem exec_adjustBase_rb (hv : val 1 m s = .ok v) : ∃ t, exec (.adjustBase m) s = .next t ∧ t.rb = s.rb + v :=
  ⟨_, exec_adjustBase_of_ok hv, rfl⟩

end

section
variable {i a : Nat} {s : State}

/-- A positional source whose word is a natural number has the value of that cell (R84). -/
theorem val_positional_of_natCast (h : raw i s = a) : val i .positional s = .ok (s.readCell a) := by
  rw [val_positional, h, memRead_natCast]

/-- A relative source whose word and the base add up to a natural number has the value of that cell (R84). -/
theorem val_relative_of_natCast (h : s.rb + raw i s = a) : val i .relative s = .ok (s.readCell a) := by
  rw [val_relative, h, memRead_natCast]

/-- A relative destination whose word and the base add up to a natural number names that cell (R85). -/
theorem dst_relative_of_natCast (h : s.rb + raw i s = a) : dst i .relative s = .ok a := by
  rw [dst_relative, h, checkAddr_natCast]

end

/-- Settles O23: opcode 9 selects the row of adjust-base, and an adjust-base adds its source's value to the base or takes what the
source raises. -/
theorem adjustBaseAddsTheValue : Obligations.AdjustBaseAddsTheValue :=
  ⟨decode_oneOperand fun _ _ _ => rfl, fun _ _ => ⟨fun _ => exec_adjustBase_of_ok, fun _ => exec_adjustBase_of_raises⟩⟩

/-- Settles O24: the base grows by the source's value, which each mode finds in its own place; a relative operand resolves with
the base of the state it is resolved in, whichever instruction led there. -/
theorem relativeBaseScenario : Obligations.RelativeBaseScenario :=
  fun s => ⟨exec_adjustBase_rb (val_immediate 1 s), fun _ hk => exec_adjustBase_rb (val_positional_of_natCast hk),
    fun _ hk => exec_adjustBase_rb (val_relative_of_natCast hk),
    fun _ _ _ _ _ ha => ⟨val_relative_of_natCast ha, dst_relative_of_natCast ha⟩⟩

end Sys2Proof.Machine

/-! PROOFS. The output channel (50_host_interface.md, R145): no step looks at what waits in it, and a session's total output is
every item its steps push. -/

namespace Sys2Proof.Machine

/-- `outq <- q`: the same core with another backlog in the output channel. -/
def setOutput (q : List Int) (s : State) : State :=
  { s with outq := q }

section
variable (q : List Int) (s : State)

/-! Every operation of a step but a push answers the same on another backlog and carries the backlog along. -/

@[simp] theorem val_setOutput (i : Nat) (m : Mode) : val i m (setOutput q s) = val i m s := rfl
@[simp] theorem dst_setOutput (i : Nat) (m : Mode) : dst i m (setOutput q s) = dst i m s := rfl
@[simp] theorem fetchDecode_setOutput : fetchDecode (setOutput q s) = fetchDecode s := rfl

@[simp] theorem jumpTo_setOutput (v : Int) : jumpTo v (setOutput q s) = setOutput q <$> jumpTo v s := by
  rw [jumpTo, jumpTo, map_bind]
  rfl

@[simp] theorem inPop_setOutput : inPop (setOutput q s) = Prod.map id (setOutput q) <$> inPop s := by
  cases h : s.inq <;> simp only [inPop, setOutput, h] <;> rfl

@[simp] theorem writeCell_setOutput (a : Nat) (v : Int) :
    (setOutput q s).writeCell a v = setOutput q (s.writeCell a v) := rfl
@[simp] theorem advance_setOutput (n : Nat) : advance n (setOutput q s) = setOutput q (advance n s) := rfl
@[simp] theorem addToBase_setOutput (v : Int) : addToBase v (setOutput q s) = setOutput q (addToBase v s) := rfl

theorem storeResult_setOutput (f : Int → Int → Int) (m1 m2 m3 : Mode) :
    storeResult f m1 m2 m3 (setOutput q s) = setOutput q <$> storeResult f m1 m2 m3 s := by
  simp [storeResult]

theorem jumpWhen_setOutput (p : Int → Bool) (m1 m2 : Mode) :
    jumpWhen p m1 m2 (setOutput q s) = setOutput q <$> jumpWhen p m1 m2 s := by
  simp [jumpWhen, apply_ite]

end

section
variable {s t : State} {q : List Int} {i : Instr}

/-- A meaning that carries the backlog along completes on another one as it does on its own, its fault included (R166). -/
theorem complete_setOutput {r r' : Except Cause State} (hr : r' = setOutput q <$> r) (h : complete s r = .next t) :
    complete (setOutput q s) r' = .next (setOutput q t) := by
  subst hr
  rcases complete_eq_next.1 h with rfl | ⟨c, rfl, rfl⟩ <;> rfl

/-- A decoded instruction that answers a next state answers it on any other backlog, with the item it pushes appended: only
output pushes, and the others carry the backlog along (R110, R113). -/
theorem exec_setOutput (h : exec i s = .next t) :
    exec i (setOutput q s) = .next (setOutput (q ++ outputOf i s) t) := by
  cases i with
  | output m =>
    cases hv : val 1 m s with
    | ok v =>
      rw [exec_output_of_ok hv, Host.Outcome.next.injEq] at h
      rw [exec_output_of_ok (s := setOutput q s) hv, ← h, outputOf, hv]
      rfl
    | error c =>
      rw [exec_output_of_raises (val_eq_error.1 hv), Host.Outcome.next.injEq] at h
      rw [exec_output_of_raises (s := setOutput q s) (val_eq_error.1 hv), ← h, outputOf, hv, List.append_nil]
      rfl
  | add | mul | lessThan | equals =>
    rw [outputOf, List.append_nil]
    exact complete_setOutput (storeResult_setOutput q s _ _ _ _) h
  | jumpIfTrue | jumpIfFalse =>
    rw [outputOf, List.append_nil]
    exact complete_setOutput (jumpWhen_setOutput q s _ _ _) h
  | input | adjustBase =>
    rw [outputOf, List.append_nil]
    exact complete_setOutput (by simp) h
  | halt =>
    rw [outputOf, List.append_nil]
    exact complete_setOutput (s := s) (r := .ok (enterHalted s)) rfl h

/-- What waits in the output channel never affects a step: on any other backlog the step answers the same state, with the item
it pushes appended to that backlog (R145). -/
theorem step_setOutput (h : step s = .next t) :
    step (setOutput q s) = .next (setOutput (q ++ pushedByStep s) t) := by
  have hs : s.status = .running := (step_next h).1
  have hs' : (setOutput q s).status = .running := hs
  cases hf : fetchDecode s with
  | ok i =>
    simp only [step, hs, hf] at h
    simpa only [step, hs', fetchDecode_setOutput, pushedByStep, hs, hf] using exec_setOutput h
  | error c =>
    simp only [step, hs, hf] at h
    simpa only [step, hs', fetchDecode_setOutput, pushedByStep, hs, hf, List.append_nil] using
      complete_setOutput (r' := .error c) rfl h

end

section
variable {m : HostMove} {ms : List HostMove} {x y : Session}

/-- The total output after a step request is what it was and then what the step pushes, which is nothing where no step is
enabled (R142, R145). -/
theorem totalOutput_stepRequest (s : State) (q : List Int) :
    Session.totalOutput ⟨(stepRequest s).1, q⟩ = Session.totalOutput ⟨s, q⟩ ++ pushedByStep s := by
  rcases stepRequest_cases s with ⟨t, ht, hr⟩ | ⟨hs, hr⟩
  · simp [hr, step_outq ht]
  · simp [hr, hs]

/-- A host move that is no reset extends the total output by what it makes the core push: a drain only moves items that are
part of it already (R145). -/
theorem hostMove_totalOutput (hm : ∀ p i, m ≠ .reset p i) (h : hostMove m x = some y) :
    y.totalOutput = x.totalOutput ++ pushedByMove m x := by
  rcases hostMove_cases h with ⟨p, i, rfl, -⟩ | ⟨rfl, rfl⟩ | ⟨v, rfl, rfl⟩ | ⟨k, rfl, -, rfl⟩
  · exact absurd rfl (hm p i)
  · exact totalOutput_stepRequest x.core x.drained
  · exact (List.append_nil _).symm
  · exact (totalOutput_drain x.core x.drained k).trans (List.append_nil _).symm

/-- What a session pushes is what its first move pushes and then what the rest does. -/
theorem pushedByMoves_cons (h : hostMove m x = some y) :
    pushedByMoves (m :: ms) x = pushedByMove m x ++ pushedByMoves ms y := by
  simp [pushedByMoves, h]

/-- Moves without a reset extend the total output by everything their steps push, in push order (R145). -/
theorem hostMoves_totalOutput (hms : ∀ p i, HostMove.reset p i ∉ ms) (h : hostMoves ms x = some y) :
    y.totalOutput = x.totalOutput ++ pushedByMoves ms x := by
  induction ms generalizing x with
  | nil =>
    obtain rfl : x = y := Option.some.inj h
    exact (List.append_nil _).symm
  | cons m ms ih =>
    obtain ⟨z, hz, hy⟩ := hostMoves_cons_eq_some.1 h
    have hm (p i) : m ≠ .reset p i := fun e => hms p i (e ▸ List.mem_cons_self)
    have hrest (p i) : HostMove.reset p i ∉ ms := fun hp => hms p i (List.mem_cons_of_mem m hp)
    rw [ih hrest hy, hostMove_totalOutput hm hz, pushedByMoves_cons hz, List.append_assoc]

end

/-- A drain of `k` items, where so many wait, makes the session's host hold them and leaves the rest (R145). -/
theorem hostMove_drainOutput {k : Nat} {x : Session} (h : k ≤ x.core.outq.length) :
    hostMove (.drainOutput k) x =
      some { core := setOutput (x.core.outq.drop k) x.core, drained := x.drained ++ x.core.outq.take k } := by
  rw [hostMove, drainOutput_eq_some.2 ⟨h, rfl, rfl⟩]
  rfl

/-- Settles O45: the drain clauses are the law of `drainOutput`; the step clause is `step_outq` and `step_setOutput`; the total
output is `hostMoves_totalOutput`, by induction on the moves. -/
theorem outputBacklogIsInvisible : Obligations.OutputBacklogIsInvisible :=
  ⟨fun _ _ hk => drainOutput_eq_some.2 ⟨hk, rfl, rfl⟩, fun _ _ => hostMove_drainOutput,
    fun _ _ _ h => ⟨step_outq h, step_setOutput h⟩, fun _ _ _ => hostMoves_totalOutput⟩

end Sys2Proof.Machine

/-! PROOFS. The canonical word (30_encoding.md sections 1, 2, 4, 7): the decoder and the encoder are inverse on the digits that an
instruction uses. -/

namespace Sys2Proof

/-- The modes of `ops` are those that the decimal digits of `v` name, the lowest digit first (R62, R64). -/
def ModesFromDigits : Int → List (Role × Mode) → Prop
  | _, [] => True
  | v, (_, m) :: rest => m = .ofDigit (v % 10) ∧ ModesFromDigits (v / 10) rest

/-- The lowest digits of `v` are those below `a` and then those of what stands above `a`. -/
theorem emod_mul_eq {a : Int} (ha : 0 ≤ a) (v b : Int) : v % (a * b) = v % a + a * (v / a % b) := by
  rw [Int.emod_def, Int.emod_def, Int.emod_def, Int.ediv_ediv_of_nonneg ha]
  ring

/-- A decoded instruction is the row of its opcode with the modes that the word's own digits name, and conversely. -/
theorem decode_eq_ok_iff_digits {w : Int} {i : Instr} :
    decode w = .ok i ↔ 0 ≤ w ∧ w % 100 = i.opcode ∧ ModesFromDigits (w / 100) i.operands := by
  have hd2 : w / 100 / 10 = w / 1000 := by omega
  have hd3 : w / 1000 / 10 = w / 10000 := by omega
  have row (hw : 0 ≤ w) (hop : w % 100 = i.opcode) : decode w = .ok i ↔ ModesFromDigits (w / 100) i.operands := by
    cases i <;> rw [decode_of_row hw hop rfl] <;> simp [ModesFromDigits, Instr.operands, hd2, hd3, eq_comm]
  exact ⟨fun h => ⟨decode_ok_nonneg h, decode_ok_opcode h, (row (decode_ok_nonneg h) (decode_ok_opcode h)).1 h⟩,
    fun ⟨hw, hop, hm⟩ => (row hw hop).2 hm⟩

/-- An instruction has an encoding when each of its modes stands for a decimal digit. -/
theorem wf_iff_operands_wf (i : Instr) : i.wf = true ↔ ∀ o ∈ i.operands, o.2.wf = true := by
  cases i <;> simp [Instr.wf, Instr.operands, and_assoc]

/-- The modes come from the digits of `v` exactly when each stands for a decimal digit and together they make up the lowest
digits of `v`. -/
theorem modesFromDigits_iff {v : Int} {ops : List (Role × Mode)} :
    ModesFromDigits v ops ↔ (∀ o ∈ ops, o.2.wf = true) ∧ modeDigits ops = v % 10 ^ ops.length := by
  induction ops generalizing v with
  | nil => simp [ModesFromDigits, modeDigits]
  | cons o ops ih =>
    obtain ⟨r, m⟩ := o
    have hsplit : v % 10 ^ (ops.length + 1) = v % 10 + 10 * (v / 10 % 10 ^ ops.length) := by
      rw [pow_succ', emod_mul_eq (by decide)]
    simp only [ModesFromDigits, ih, modeDigits, List.length_cons, List.forall_mem_cons, hsplit]
    constructor
    · rintro ⟨rfl, hwf, hrest⟩
      exact ⟨⟨ofDigit_wf (by omega) (by omega), hwf⟩, by rw [digit_ofDigit, hrest]⟩
    · rintro ⟨⟨hm, hwf⟩, hdig⟩
      have := digit_bounds hm
      have hlow : m.digit = v % 10 := by omega
      exact ⟨by rw [← hlow, ofDigit_digit hm], hwf, by omega⟩

/-- A word decodes to an instruction exactly when it is not negative, the instruction is well-formed, and the canonical word is
the word's own digits at the positions the instruction uses (30_encoding.md sections 1 and 2). -/
theorem decode_eq_ok_iff_encode {w : Int} {i : Instr} :
    decode w = .ok i ↔ 0 ≤ w ∧ i.wf = true ∧ encode i = w % (100 * 10 ^ i.operands.length) := by
  have hsplit : w % (100 * 10 ^ i.operands.length) = w % 100 + 100 * (w / 100 % 10 ^ i.operands.length) :=
    emod_mul_eq (by decide) _ _
  have := opcode_bounds i
  rw [decode_eq_ok_iff_digits, modesFromDigits_iff, ← wf_iff_operands_wf, hsplit, encode]
  constructor
  · rintro ⟨hw, hop, hwf, hdig⟩
    exact ⟨hw, hwf, by rw [hop, hdig]⟩
  · rintro ⟨hw, hwf, he⟩
    exact ⟨hw, by omega, hwf, by omega⟩

/-- The digits of well-formed modes make a number of as many digits. -/
theorem modeDigits_bounds {ops : List (Role × Mode)} (h : ∀ o ∈ ops, o.2.wf = true) :
    0 ≤ modeDigits ops ∧ modeDigits ops < 10 ^ ops.length := by
  induction ops with
  | nil => simp [modeDigits]
  | cons o ops ih =>
    obtain ⟨hm, hrest⟩ := List.forall_mem_cons.1 h
    have := digit_bounds hm
    have := ih hrest
    simp only [modeDigits, List.length_cons, pow_succ]
    omega

/-- Decoding the canonical word of a well-formed instruction gives it back. -/
theorem decode_encode {i : Instr} (h : i.wf = true) : decode (encode i) = .ok i := by
  have := opcode_bounds i
  have := modeDigits_bounds ((wf_iff_operands_wf i).1 h)
  have h0 : 0 ≤ encode i := by rw [encode]; omega
  exact decode_eq_ok_iff_encode.2 ⟨h0, h, (Int.emod_eq_of_lt h0 (by rw [encode]; omega)).symm⟩

/-- Settles O4: the canonical word is its own lowest digits, so `decode_eq_ok_iff_encode` reads the instruction back. -/
theorem decodeOfEncode : Obligations.DecodeOfEncode :=
  fun _ => decode_encode

/-- Settles O5: this is one direction of `decode_eq_ok_iff_encode`. -/
theorem encodeOfDecode : Obligations.EncodeOfDecode :=
  fun _ _ => decode_eq_ok_iff_encode.1

/-- Settles O3: by `decode_eq_ok_iff_encode` a non-negative word with the used digits of `w` decodes to what `w` does. -/
theorem unusedDigitsAreIgnored : Obligations.UnusedDigitsAreIgnored := by
  intro w u i _ hu hd heq
  obtain ⟨-, hwf, he⟩ := decode_eq_ok_iff_encode.1 hd
  exact decode_eq_ok_iff_encode.2 ⟨hu, hwf, he.trans heq⟩

/-- Settles O6: ten words, evaluated. -/
theorem writtenOutWordsDecode : Obligations.WrittenOutWordsDecode := by
  and_intros <;> decide

/-! ## The lines of the spec's assembler (R73, R74) -/

section
variable {i : Instr} {r1 r2 r3 : Role} {d1 d2 d3 : Int}

/-- The canonical word of a row of one operand (R61). -/
theorem encode_oneOperand (h : i.operands = [(r1, .ofDigit d1)]) : encode i = i.opcode + 100 * d1 := by
  simp [encode, h, modeDigits]

/-- The canonical word of a row of two operands (R61). -/
theorem encode_twoOperands (h : i.operands = [(r1, .ofDigit d1), (r2, .ofDigit d2)]) :
    encode i = i.opcode + 100 * d1 + 1000 * d2 := by
  simp only [encode, h, modeDigits, digit_ofDigit]
  ring

/-- The canonical word of a row of three operands (R61). -/
theorem encode_threeOperands (h : i.operands = [(r1, .ofDigit d1), (r2, .ofDigit d2), (r3, .ofDigit d3)]) :
    encode i = i.opcode + 100 * d1 + 1000 * d2 + 10000 * d3 := by
  simp only [encode, h, modeDigits, digit_ofDigit]
  ring

end

section
variable {o : AsmOperand} {d n : Int}

/-- A marked operand has the mode that the digit of its mark names (R73). -/
theorem mode_of_marked (h : o.Marked d n) : o.mode = .ofDigit d := by
  rcases h with ⟨rfl, rfl⟩ | ⟨rfl, rfl⟩ | ⟨rfl, rfl⟩ <;> rfl

/-- A marked operand has the word it is written with (R73). -/
theorem word_of_marked (h : o.Marked d n) : o.word = n := by
  rcases h with ⟨rfl, -⟩ | ⟨rfl, -⟩ | ⟨rfl, -⟩ <;> rfl

end

/-- Every operand as it is written has a mark and a word (R73). -/
theorem exists_marked (o : AsmOperand) : ∃ d n, o.Marked d n := by
  cases o with
  | positional n => exact ⟨0, n, .inl ⟨rfl, rfl⟩⟩
  | immediate n => exact ⟨1, n, .inr (.inl ⟨rfl, rfl⟩)⟩
  | relative n => exact ⟨2, n, .inr (.inr ⟨rfl, rfl⟩)⟩

/-- Every mark names one of the three modes (R73), which have a digit. -/
@[simp] theorem asmOperand_mode_wf (o : AsmOperand) : o.mode.wf = true := by
  cases o <;> rfl

section
variable {l : AsmLine} {i : Instr}

/-- The instruction of a line is well-formed: no mark stands for a digit 3 to 9. -/
theorem asmLine_instr_wf (h : l.instr = some i) : i.wf = true := by
  cases l <;> cases h <;> simp [Instr.wf]

/-- The cells of an instruction's line are its canonical word and its operand words (R73). -/
theorem asmLine_cells (h : l.instr = some i) : l.cells = encode i :: l.words := by
  rw [AsmLine.cells, h]

/-- A line has one word for each operand of its instruction. -/
theorem asmLine_words_length (h : l.instr = some i) : l.words.length = i.operands.length := by
  cases l <;> cases h <;> rfl

end

/-- Settles O7: the first cell of a line is the canonical word of its instruction, whose digits are those of the marks, and
that word decodes back by `decode_encode`. -/
theorem assembledLineDecodes : Obligations.AssembledLineDecodes := by
  refine ⟨fun a b c d1 n1 d2 n2 d3 n3 ha hb hc => ?_, ⟨by decide, by decide⟩, exists_marked, fun _ => rfl, rfl,
    fun _ _ => rfl, fun l i h => ⟨⟨_, asmLine_cells h⟩, ?_, decode_encode (asmLine_instr_wf h)⟩⟩
  · have hwa : (Mode.ofDigit d1).wf = true := mode_of_marked ha ▸ asmOperand_mode_wf a
    have hwb : (Mode.ofDigit d2).wf = true := mode_of_marked hb ▸ asmOperand_mode_wf b
    have hwc : (Mode.ofDigit d3).wf = true := mode_of_marked hc ▸ asmOperand_mode_wf c
    have decodes {w : Int} {i : Instr} (he : encode i = w) (h : i.wf = true) : decode w = .ok i := he ▸ decode_encode h
    have wf3 : ((Mode.ofDigit d1).wf && (Mode.ofDigit d2).wf && (Mode.ofDigit d3).wf) = true := by simp [hwa, hwb, hwc]
    have wf2 : ((Mode.ofDigit d1).wf && (Mode.ofDigit d2).wf) = true := by simp [hwa, hwb]
    simp only [AsmLine.cells, AsmLine.instr, AsmLine.words, word_of_marked ha, word_of_marked hb, word_of_marked hc,
      mode_of_marked ha, mode_of_marked hb, mode_of_marked hc, List.cons.injEq, and_true]
    exact ⟨encode_threeOperands rfl, encode_threeOperands rfl, encode_oneOperand rfl, encode_oneOperand rfl,
      encode_twoOperands rfl, encode_twoOperands rfl, encode_threeOperands rfl, encode_threeOperands rfl,
      encode_oneOperand rfl, decodes (encode_threeOperands rfl) wf3, decodes (encode_threeOperands rfl) wf3,
      decodes (encode_oneOperand rfl) hwa, decodes (encode_oneOperand rfl) hwa, decodes (encode_twoOperands rfl) wf2,
      decodes (encode_twoOperands rfl) wf2, decodes (encode_threeOperands rfl) wf3,
      decodes (encode_threeOperands rfl) wf3, decodes (encode_oneOperand rfl) hwa⟩
  · rw [asmLine_cells h, List.length_cons, asmLine_words_length h, Instr.length, Nat.add_comm]

end Sys2Proof

/-! PROOFS. What a step does, said both ways: the effect and the fault of an instruction determine what it answers, and a step
is taken apart into the fetch and one of the two. -/

namespace Sys2Proof.Machine

/-! ## An instruction answers its effect, or the fault it raises -/

section
variable {s t : State} {i : Instr} {c : Cause}

/-- A three-operand meaning that has something to store stores it and advances by 4. -/
theorem storeResult_of_resultStore {f : Int → Int → Int} {m1 m2 m3 : Mode} {d : Nat} {v : Int}
    (h : resultStore f m1 m2 m3 s = some (d, v)) : storeResult f m1 m2 m3 s = .ok (advance 4 (s.writeCell d v)) := by
  unfold resultStore at h
  split at h
  next h1 h2 h3 =>
    cases h
    exact storeResult_of_ok h1 h2 h3
  next => cases h

/-- The effect of an instruction is what it answers. -/
theorem exec_of_effect (h : Effect s i t) : exec i s = .next t := by
  cases h with
  | store hlen h =>
    cases i with
    | add | mul | lessThan | equals => exact congrArg (complete s) (storeResult_of_resultStore h)
    | _ => cases hlen
  | input hd hq => simp [exec, execInput, hd, inPop_eq_ok.2 ⟨_, hq, rfl⟩, bind, Except.bind, pure, Except.pure]
  | output hv => exact exec_output_of_ok hv
  | takenIfTrue h1 h2 hp => exact congrArg (complete s) (jumpWhen_of_taken h1 h2 (takenIfTrue_eq_true.2 hp))
  | fallIfTrue h1 h2 hp => exact congrArg (complete s) (jumpWhen_of_not_taken h1 h2 (takenIfTrue_eq_false.2 hp))
  | takenIfFalse h1 h2 hp => exact congrArg (complete s) (jumpWhen_of_taken h1 h2 (takenIfFalse_eq_true.2 hp))
  | fallIfFalse h1 h2 hp => exact congrArg (complete s) (jumpWhen_of_not_taken h1 h2 (takenIfFalse_eq_false.2 hp))
  | base hv => exact exec_adjustBase_of_ok hv
  | halt => rfl

/-- What phase 4 raises is the fault an instruction takes (R167). -/
theorem exec_of_resolveAll_error (h : resolveAll i s = .error c) : exec i s = .next (takeFault c s) := by
  cases i with
  | add | mul | lessThan | equals => exact congrArg (complete s) (storeResult_eq_error.2 h)
  | jumpIfTrue | jumpIfFalse => exact congrArg (complete s) (jumpWhen_eq_error.2 (.inl h))
  | input => exact exec_input_of_raises (dst_eq_error.1 (resolveAll_input.1 h))
  | output => exact exec_output_of_raises (val_eq_error.1 (resolveFrom_oneSource.1 h))
  | adjustBase => exact exec_adjustBase_of_raises (val_eq_error.1 (resolveFrom_oneSource.1 h))
  | halt => cases h

/-- What an instruction raises is the fault it takes. -/
theorem exec_of_raises (h : Raises s i c) : exec i s = .next (takeFault c s) := by
  cases h with
  | operand h => exact exec_of_resolveAll_error h
  | starved hd hq => exact exec_input_of_empty hd hq
  | targetIfTrue h1 h2 hp hv =>
    exact congrArg (complete s) (jumpWhen_of_negative_target h1 h2 (takenIfTrue_eq_true.2 hp) hv)
  | targetIfFalse h1 h2 hp hv =>
    exact congrArg (complete s) (jumpWhen_of_negative_target h1 h2 (takenIfFalse_eq_true.2 hp) hv)

/-- An instruction that completes leaves the status as it is, unless it is halt. -/
theorem effect_status (h : Effect s i t) : (i = .halt ∧ t.status = .halted) ∨ (i ≠ .halt ∧ t.status = s.status) := by
  cases h with
  | @store i d v hlen h =>
    refine .inr ⟨?_, rfl⟩
    rintro rfl
    cases hlen
  | halt => exact .inl ⟨rfl, rfl⟩
  | _ => exact .inr ⟨by simp, rfl⟩

/-- Halt raises nothing. -/
theorem not_raises_halt : ¬ Raises s .halt c := by
  intro h
  cases h with
  | operand h => cases h

end

/-! ## The step -/

section
variable {s t : State} {i : Instr} {c : Cause}

/-- The step of a running core is the decoded instruction (R80). -/
theorem step_of_decode_ok (hs : s.status = .running) (hd : decode (s.readCell s.ip) = .ok i) : step s = exec i s := by
  simp only [step, hs, fetchDecode_eq_ok.2 hd]

/-- A word that selects no row takes `UnknownOpcode` (R161). -/
theorem step_of_decode_error {e : DecodeError} (hs : s.status = .running) (hd : decode (s.readCell s.ip) = .error e) :
    step s = .next (takeFault (.unknownOpcode (s.readCell s.ip)) s) := by
  simp only [step, hs, fetchDecode_eq_error.2 ⟨(decode_eq_error.1 hd).1, rfl⟩, complete_error]

/-- The fault that the step of a running core takes: its word selects no row, or the decoded instruction raises. -/
inductive StepRaises (s : State) : Cause → Prop
  | unknown (h : decode (s.readCell s.ip) = .error (.unknownOpcode (s.readCell s.ip))) :
      StepRaises s (.unknownOpcode (s.readCell s.ip))
  | decoded {i : Instr} {c : Cause} (hd : decode (s.readCell s.ip) = .ok i) (h : Raises s i c) : StepRaises s c

/-- Everything a step can do: the core was running, and the step is the effect of the decoded instruction or the fault it
takes. -/
theorem step_cases (h : step s = .next t) :
    s.status = .running ∧
      ((∃ i, decode (s.readCell s.ip) = .ok i ∧ Effect s i t) ∨ ∃ c, t = takeFault c s ∧ StepRaises s c) := by
  obtain ⟨hs, ⟨i, hd, he⟩ | ⟨hn, rfl⟩⟩ := step_next h
  · rcases exec_next he with he | ⟨c, ht, hr⟩
    · exact ⟨hs, .inl ⟨i, hd, he⟩⟩
    · exact ⟨hs, .inr ⟨c, ht, .decoded hd hr⟩⟩
  · exact ⟨hs, .inr ⟨_, rfl, .unknown (decode_eq_error.2 ⟨hn, rfl⟩)⟩⟩

/-- What the step of a running core raises is the fault it takes. -/
theorem step_of_raises (hs : s.status = .running) (h : StepRaises s c) : step s = .next (takeFault c s) := by
  cases h with
  | unknown h => exact step_of_decode_error hs h
  | decoded hd h => rw [step_of_decode_ok hs hd, exec_of_raises h]

/-- A step that ends in a fault took it in the state it began in (R166). -/
theorem step_faulted (h : step s = .next t) (ht : t.status = .faulted c) : t = takeFault c s ∧ StepRaises s c := by
  obtain ⟨hs, ⟨i, -, he⟩ | ⟨c', rfl, hr⟩⟩ := step_cases h
  · rcases effect_status he with ⟨-, hh⟩ | ⟨-, hh⟩
    · cases hh.symm.trans ht
    · cases hs.symm.trans (hh.symm.trans ht)
  · cases ht
    exact ⟨rfl, hr⟩

/-- A step faults exactly with what it raises. -/
theorem step_faulted_iff (h : step s = .next t) : t.status = .faulted c ↔ StepRaises s c := by
  refine ⟨fun ht => (step_faulted h ht).2, fun hr => ?_⟩
  rw [step_of_raises (step_next h).1 hr, Host.Outcome.next.injEq] at h
  rw [← h, takeFault_status]

/-- A step halts exactly when it runs halt (R135). -/
theorem step_halted_iff (h : step s = .next t) : t.status = .halted ↔ decode (s.readCell s.ip) = .ok .halt := by
  obtain ⟨hs, ⟨i, hd, he⟩ | ⟨c, rfl, hr⟩⟩ := step_cases h
  · rw [hd, Except.ok.injEq]
    rcases effect_status he with ⟨hi, ht⟩ | ⟨hi, ht⟩ <;> simp [hi, ht, hs]
  · refine ⟨nofun, fun hd => ?_⟩
    cases hr with
    | unknown hu => cases hd.symm.trans hu
    | decoded hd' hr =>
      cases hd.symm.trans hd'
      exact absurd hr not_raises_halt

end

/-! ## The operands that phase 4 refuses -/

section
variable {s : State} {c : Cause}

/-- Phase 4 over a list of operands raises what its first operand that raises does (R80, R167). -/
theorem resolveFrom_eq_error_iff {ops : List (Role × Mode)} {i : Nat} :
    resolveFrom i ops s = .error c ↔
      ∃ k r m, ops[k]? = some (r, m) ∧ OperandRaises (i + k) m s c ∧
        ∀ j r' m' c', j < k → ops[j]? = some (r', m') → ¬ OperandRaises (i + j) m' s c' := by
  induction ops generalizing i with
  | nil => simp
  | cons o ops ih =>
    obtain ⟨r, m⟩ := o
    have shift (k : Nat) : i + (k + 1) = i + 1 + k := by omega
    rw [resolveFrom_cons_error, resolveOperand_eq_error, ih]
    constructor
    · rintro (h | ⟨hok, k, r', m', hk, hc, hfirst⟩)
      · exact ⟨0, r, m, rfl, h, fun _ _ _ _ hj => absurd hj (Nat.not_lt_zero _)⟩
      · refine ⟨k + 1, r', m', hk, by rwa [shift], fun j r'' m'' c' hj hget hraise => ?_⟩
        cases j with
        | zero =>
          cases hget
          cases hok.symm.trans (resolveOperand_eq_error.2 hraise)
        | succ j => exact hfirst j r'' m'' c' (Nat.lt_of_succ_lt_succ hj) hget (by rwa [← shift])
    · rintro ⟨k, r', m', hk, hc, hfirst⟩
      cases k with
      | zero =>
        cases hk
        exact .inl hc
      | succ k =>
        refine .inr ⟨?_, k, r', m', hk, by rwa [← shift], fun j r'' m'' c' hj hget hraise =>
          hfirst (j + 1) r'' m'' c' (Nat.succ_lt_succ hj) hget (by rwa [shift])⟩
        cases hok : resolveOperand i r m s with
        | ok u => rfl
        | error e => exact absurd (resolveOperand_eq_error.1 hok) (hfirst 0 r m e (Nat.succ_pos k) rfl)

/-- Phase 4 raises what the first operand that raises does (R167). -/
theorem resolveAll_eq_error_iff {i : Instr} :
    resolveAll i s = .error c ↔
      ∃ k r m, i.operands[k]? = some (r, m) ∧ OperandRaises (k + 1) m s c ∧
        ∀ j r' m' c', j < k → i.operands[j]? = some (r', m') → ¬ OperandRaises (j + 1) m' s c' := by
  simp only [resolveAll, resolveFrom_eq_error_iff, Nat.add_comm]

/-- The claims' account of a faulting step is the model's. -/
theorem stepFaultsWith_iff : StepFaultsWith s c ↔ StepRaises s c := by
  constructor
  · rintro (⟨w, hw, rfl⟩ | ⟨i, hd, h | ⟨m, d, rfl, hm, hq, rfl⟩ | ⟨m1, m2, v1, v2, rfl, h1, hp, h2, hv, rfl⟩ |
      ⟨m1, m2, v2, rfl, h1, h2, hv, rfl⟩⟩)
    · obtain ⟨-, he⟩ := decode_eq_error.1 hw
      cases he
      exact .unknown hw
    · exact .decoded hd (.operand (resolveAll_eq_error_iff.2 h))
    · exact .decoded hd (.starved hm hq)
    · exact .decoded hd (.targetIfTrue h1 h2 hp hv)
    · exact .decoded hd (.targetIfFalse h1 h2 rfl hv)
  · intro h
    cases h with
    | unknown hw => exact .inl ⟨_, hw, rfl⟩
    | decoded hd hr =>
      refine .inr ⟨_, hd, ?_⟩
      cases hr with
      | operand h => exact .inl (resolveAll_eq_error_iff.1 h)
      | starved hm hq => exact .inr (.inl ⟨_, _, rfl, hm, hq, rfl⟩)
      | targetIfTrue h1 h2 hp hv => exact .inr (.inr (.inl ⟨_, _, _, _, rfl, h1, hp, h2, hv, rfl⟩))
      | targetIfFalse h1 h2 hp hv => exact .inr (.inr (.inr ⟨_, _, _, rfl, hp ▸ h1, h2, hv, rfl⟩))

end

/-! ## What a step does to the memory -/

section
variable {s t : State} {i : Instr} {c : Cause}

/-- An input stores the head item in the cell its destination names, where there are both (R112). -/
theorem storeOf_input_eq_some {m : Mode} {a : Nat} {v : Int} :
    storeOf (.input m) s = some (a, v) ↔ dst 1 m s = .ok a ∧ ∃ rest, s.inq = v :: rest := by
  simp only [storeOf]
  cases dst 1 m s <;> cases s.inq <;> simp

/-- An instruction whose store is defined completes, and moves the pointer. -/
theorem effect_of_storeOf {a : Nat} {v : Int} (h : storeOf i s = some (a, v)) : ∃ t, Effect s i t ∧ s.ip < t.ip := by
  cases i with
  | add | mul | lessThan | equals => exact ⟨_, .store rfl h, by simp⟩
  | input m =>
    obtain ⟨hd, rest, hq⟩ := storeOf_input_eq_some.1 h
    exact ⟨_, .input hd hq, by simp⟩
  | _ => cases h

/-- An instruction that raises stores nothing. -/
theorem storeOf_of_raises (h : Raises s i c) : storeOf i s = none := by
  refine Option.eq_none_iff_forall_ne_some.2 fun ⟨a, v⟩ hst => ?_
  obtain ⟨t, he, hip⟩ := effect_of_storeOf hst
  cases (exec_of_effect he).symm.trans (exec_of_raises h)
  exact absurd hip (Nat.lt_irrefl _)

/-- An instruction that completes makes the one write its store names, or leaves the memory (R56, R88). -/
theorem effect_memory (h : Effect s i t) :
    (∃ a v, storeOf i s = some (a, v) ∧ t.mem = (s.writeCell a v).mem ∧ t.len = (s.writeCell a v).len) ∨
      (storeOf i s = none ∧ t.mem = s.mem ∧ t.len = s.len) := by
  cases h with
  | store _ h => exact .inl ⟨_, _, h, rfl, rfl⟩
  | input hd hq => exact .inl ⟨_, _, storeOf_input_eq_some.2 ⟨hd, _, hq⟩, rfl, rfl⟩
  | _ => exact .inr ⟨rfl, rfl, rfl⟩

/-- What any instruction does to the memory: the one write its store names, or nothing (R56). -/
theorem exec_memory (h : exec i s = .next t) :
    (∃ a v, storeOf i s = some (a, v) ∧ t.mem = (s.writeCell a v).mem ∧ t.len = (s.writeCell a v).len) ∨
      (storeOf i s = none ∧ t.mem = s.mem ∧ t.len = s.len) := by
  rcases exec_next h with he | ⟨c, rfl, hr⟩
  · exact effect_memory he
  · exact .inr ⟨storeOf_of_raises hr, rfl, rfl⟩

/-- What any step does to the memory: one write, or nothing (R56). -/
theorem step_memory (h : step s = .next t) :
    (∃ a v, t.mem = (s.writeCell a v).mem ∧ t.len = (s.writeCell a v).len) ∨ (t.mem = s.mem ∧ t.len = s.len) := by
  obtain ⟨-, ⟨i, -, he⟩ | ⟨c, rfl, -⟩⟩ := step_cases h
  · rcases effect_memory he with ⟨a, v, -, hmem⟩ | ⟨-, hmem⟩
    · exact .inl ⟨a, v, hmem⟩
    · exact .inr hmem
  · exact .inr ⟨rfl, rfl⟩

/-- Two states with one memory and one extent read the same in every cell. -/
theorem readCell_congr (hmem : t.mem = s.mem) (hlen : t.len = s.len) (a : Nat) : t.readCell a = s.readCell a := by
  rw [State.readCell, State.readCell, hmem, hlen]

end

end Sys2Proof.Machine

/-! PROOFS. The operand resolver and the step (40_sequencer_and_operands.md): one effective address, what a running and a stopped
core do with a step request. -/

namespace Sys2Proof.Machine

/-- A read is the address check and then the cell it passes (R42). -/
theorem memRead_eq_map (a : Int) (s : State) : memRead a s = (checkAddr a).map s.readCell := by
  rw [memRead]
  cases checkAddr a <;> rfl

/-- Settles O13: mode by mode, a source is the read at the address that a destination checks. -/
theorem oneEffectiveAddressServesBothRoles : Obligations.OneEffectiveAddressServesBothRoles := by
  intro i m s
  cases m with
  | positional => exact ⟨memRead_eq_map _ s, rfl⟩
  | immediate => exact ⟨by rw [dst_immediate]; rfl, rfl⟩
  | relative => exact ⟨memRead_eq_map _ s, rfl⟩
  | invalid d => exact ⟨rfl, rfl⟩

/-- Settles O12: a positional or relative destination is the address check of what its mode computes. -/
theorem destinationOperandAddress : Obligations.DestinationOperandAddress :=
  fun i s => ⟨fun h => checkAddr_eq_error.2 ⟨h, rfl⟩, fun _ h => checkAddr_eq_ok.2 h, dst_immediate i s,
    fun h => checkAddr_eq_error.2 ⟨h, rfl⟩, fun _ h => checkAddr_eq_ok.2 h⟩

/-- Settles O25: opcode 99 selects halt, and halt enters Halted. -/
theorem haltChangesOnlyTheStatus : Obligations.HaltChangesOnlyTheStatus :=
  ⟨fun _ hw hop => decode_of_row hw hop rfl, fun _ => rfl⟩

/-- The host's word is read as the decoder reads it. -/
theorem decodeTableWord_eq_some {n w : Nat} {i : Instr} : decodeTableWord n w = some i ↔ decode (w : Int) = .ok i := by
  unfold decodeTableWord
  cases decode (w : Int) <;> simp

/-- The word the host places is the one in the cell at the pointer: the zeros go to the slots after it. -/
theorem withFetchWord_readCell_ip {s : State} (hs : s.Inv) (n w : Nat) :
    (s.withFetchWord n w).readCell (s.withFetchWord n w).ip = w := by
  have h0 := writeCell_inv s s.ip w hs
  have h1 := writeCell_inv _ (s.ip + 1) 0 h0
  have h2 := writeCell_inv _ (s.ip + 2) 0 h1
  calc (s.withFetchWord n w).readCell (s.withFetchWord n w).ip
      = ((((s.writeCell s.ip w).writeCell (s.ip + 1) 0).writeCell (s.ip + 2) 0).writeCell (s.ip + 3) 0).readCell s.ip := rfl
    _ = (((s.writeCell s.ip w).writeCell (s.ip + 1) 0).writeCell (s.ip + 2) 0).readCell s.ip :=
        readCell_writeCell_other _ 0 h2.2.1 (by omega)
    _ = ((s.writeCell s.ip w).writeCell (s.ip + 1) 0).readCell s.ip := readCell_writeCell_other _ 0 h1.2.1 (by omega)
    _ = (s.writeCell s.ip w).readCell s.ip := readCell_writeCell_other _ 0 h0.2.1 (by omega)
    _ = w := readCell_writeCell_same s s.ip w hs.1

/-- Settles O26: `step_of_decode_ok`, for the host's word with `withFetchWord_readCell_ip`. -/
theorem stepRunsTheDecodedInstruction : Obligations.StepRunsTheDecodedInstruction :=
  ⟨fun _ _ => step_of_decode_ok, fun _ n w _ hs hd =>
    step_of_decode_ok rfl ((congrArg decode (withFetchWord_readCell_ip hs n w)).trans (decodeTableWord_eq_some.1 hd))⟩

/-- Settles O27: a negative word and one with an unlisted opcode are refused by the decoder; past the extent the word is 0. -/
theorem unknownOpcodeIsTaken : Obligations.UnknownOpcodeIsTaken := by
  refine ⟨fun s hs hw => ?_, fun s hs hlen => ?_⟩
  · by_cases hneg : s.readCell s.ip < 0
    · exact step_of_decode_error hs (decode_of_neg hneg)
    · exact step_of_decode_error hs (decode_of_unlisted (Int.not_lt.1 hneg) (hw.resolve_left hneg))
  · have hword : s.readCell s.ip = 0 := readCell_beyond s hlen
    have hstep := step_of_decode_error (e := .unknownOpcode 0) hs (by rw [hword]; decide)
    rwa [hword] at hstep

/-- Settles O28: `step` refuses by the status, and a refused request gives the state back. -/
theorem stoppedCoreRefusesTheStep : Obligations.StoppedCoreRefusesTheStep := by
  refine ⟨fun s h => ⟨by simp only [step, h], ?_⟩, fun s c h => ⟨by simp only [step, h], ?_⟩⟩ <;>
    rw [stepRequest_of_stopped (by simp [h]), h]

/-- Settles O29: the fetch answers, and so does every decoded instruction, by its effect or by its fault. -/
theorem runningCoreAlwaysSteps : Obligations.RunningCoreAlwaysSteps := by
  refine ⟨fun s hs => ?_, fun i s => ?_⟩
  · obtain ⟨t, ht⟩ := step_of_running hs
    exact ⟨t, ht, stepRequest_of_next ht⟩
  · rcases exec_total i s with ⟨t, ht, -⟩ | ⟨c, ht, -⟩ <;> exact ⟨_, ht⟩

end Sys2Proof.Machine

/-! PROOFS. Faults (60_exceptions.md): when a step faults and with what, that a fault leaves everything else, and where each cause
arises. -/

namespace Sys2Proof.Machine

/-- Settles O30: a step halts where it runs halt and faults where it raises, and there is no other way to leave Running. -/
theorem statusTransitions : Obligations.StatusTransitions := by
  intro s t h
  have hhalt := step_halted_iff h
  have hfault (c) : t.status = .faulted c ↔ StepFaultsWith s c := (step_faulted_iff h).trans stepFaultsWith_iff.symm
  refine ⟨(step_next h).1, hhalt, hfault, ?_⟩
  simp only [ne_eq, ← hhalt, ← hfault]
  cases t.status <;> simp

/-- Settles O34: a step that ends in a fault took it in the state it began in. -/
theorem faultsArePrecise : Obligations.FaultsArePrecise :=
  fun _ _ _ h ht => (step_faulted h ht).1

/-- Settles O35: the first operand that raises is what phase 4 raises, and that is the fault taken. -/
theorem firstRaiseIsReported : Obligations.FirstRaiseIsReported :=
  fun _ _ k r m _ hk hc hfirst => exec_of_resolveAll_error (resolveAll_eq_error_iff.2 ⟨k, r, m, hk, hc, hfirst⟩)

section
variable {s : State} {i : Instr}

/-- A decoded instruction never raises `UnknownOpcode` (R161). -/
theorem not_raises_unknownOpcode {w : Int} : ¬ Raises s i (.unknownOpcode w) := by
  intro h
  cases h with
  | operand h =>
    obtain ⟨k, r, m, -, hc, -⟩ := resolveAll_eq_error_iff.1 h
    simp [OperandRaises] at hc

/-- Only the pop of an input with a good destination starves (R162). -/
theorem raises_inputStarved (h : Raises s i .inputStarved) : s.inq = [] ∧ ∃ m d, i = .input m ∧ dst 1 m s = .ok d := by
  cases h with
  | operand h =>
    obtain ⟨k, r, m, -, hc, -⟩ := resolveAll_eq_error_iff.1 h
    simp [OperandRaises] at hc
  | starved hd hq => exact ⟨hq, _, _, rfl, hd⟩

/-- An operand raises `InvalidMode` for its own slot and digit only (R164). -/
theorem operandRaises_invalidMode {k k' : Nat} {m : Mode} {d : Int} (h : OperandRaises k m s (.invalidMode k' d)) :
    k' = k ∧ m = .invalid d := by
  simp only [OperandRaises, Cause.invalidMode.injEq, reduceCtorEq, and_false, or_false] at h
  obtain ⟨d', rfl, rfl, rfl⟩ := h
  exact ⟨rfl, rfl⟩

/-- `InvalidMode` comes from an operand of the instruction (R164). -/
theorem raises_invalidMode {k : Nat} {d : Int} (h : Raises s i (.invalidMode k d)) :
    ∃ r j, k = j + 1 ∧ i.operands[j]? = some (r, .invalid d) := by
  cases h with
  | operand h =>
    obtain ⟨j, r, m, hj, hc, -⟩ := resolveAll_eq_error_iff.1 h
    obtain ⟨rfl, rfl⟩ := operandRaises_invalidMode hc
    exact ⟨r, j, rfl, hj⟩

/-- The places `NegativeAddress` comes from, and that it records a negative integer (R163). -/
theorem raises_negativeAddress {a : Int} (h : Raises s i (.negativeAddress a)) :
    a < 0 ∧ ((∃ k r, i.operands[k]? = some (r, .positional) ∧ a = raw (k + 1) s) ∨
      (∃ k r, i.operands[k]? = some (r, .relative) ∧ a = s.rb + raw (k + 1) s) ∨
      (∃ m1 m2 v1, i = .jumpIfTrue m1 m2 ∧ val 1 m1 s = .ok v1 ∧ v1 ≠ 0 ∧ val 2 m2 s = .ok a) ∨
      (∃ m1 m2, i = .jumpIfFalse m1 m2 ∧ val 1 m1 s = .ok 0 ∧ val 2 m2 s = .ok a)) := by
  cases h with
  | operand h =>
    obtain ⟨k, r, m, hk, ⟨d, -, hc⟩ | ⟨rfl, hneg, hc⟩ | ⟨rfl, hneg, hc⟩, -⟩ := resolveAll_eq_error_iff.1 h
    · cases hc
    · cases hc
      exact ⟨hneg, .inl ⟨k, r, hk, rfl⟩⟩
    · cases hc
      exact ⟨hneg, .inr (.inl ⟨k, r, hk, rfl⟩)⟩
  | targetIfTrue h1 h2 hp hv => exact ⟨hv, .inr (.inr (.inl ⟨_, _, _, rfl, h1, hp, h2⟩))⟩
  | targetIfFalse h1 h2 hp hv => exact ⟨hv, .inr (.inr (.inr ⟨_, _, rfl, hp ▸ h1, h2⟩))⟩

end

/-- The operands of a decoded instruction have decimal digits for modes, so an invalid one is 3 to 9 (R70). -/
theorem decoded_invalid_digit {w : Int} {i : Instr} {j : Nat} {r : Role} {d : Int} (hd : decode w = .ok i)
    (hj : i.operands[j]? = some (r, .invalid d)) : 3 ≤ d ∧ d ≤ 9 := by
  obtain ⟨-, hwf, -⟩ := decode_eq_ok_iff_encode.1 hd
  have hm := (wf_iff_operands_wf i).1 hwf _ (List.mem_of_getElem? hj)
  simpa [Mode.wf] using hm

/-- Settles O36: only the pop of an input raises `InputStarved`. -/
theorem onlyInputStarves : Obligations.OnlyInputStarves := by
  intro s t h ht
  cases (step_faulted h ht).2 with
  | decoded hd hr =>
    obtain ⟨hq, m, d, rfl, hm⟩ := raises_inputStarved hr
    exact ⟨hq, m, d, hd, hm⟩

/-- Settles O37: by `raises_negativeAddress`, whatever raised it. -/
theorem negativeAddressArisesOnlyFrom : Obligations.NegativeAddressArisesOnlyFrom := by
  intro s t a h ht
  cases (step_faulted h ht).2 with
  | decoded hd hr =>
    obtain ⟨hneg, hplace⟩ := raises_negativeAddress hr
    exact ⟨hneg, _, hd, hplace⟩

/-- Settles O38: by `raises_invalidMode`, and the digit is one of a word. -/
theorem invalidModeArisesOnlyFrom : Obligations.InvalidModeArisesOnlyFrom := by
  intro s t k d h ht
  cases (step_faulted h ht).2 with
  | decoded hd hr =>
    obtain ⟨r, j, hk, hj⟩ := raises_invalidMode hr
    obtain ⟨h3, h9⟩ := decoded_invalid_digit hd hj
    exact ⟨h3, h9, _, r, j, hd, hk, hj⟩

end Sys2Proof.Machine

/-! PROOFS. Memory and invariant (10_state.md section 3, 20_memory.md section 5): the one cell a step changes, the extent, what a
reset leaves, and that every step and every host move keeps the invariant. -/

namespace Sys2Proof.Machine

/-- A write never shortens the extent. -/
theorem le_writeCell_len (s : State) (a : Nat) (v : Int) : s.len ≤ (s.writeCell a v).len := by
  rw [writeCell_len]
  split <;> omega

/-- An instruction that stores leaves the value in its cell, which the extent reaches, and every other cell as it was. -/
theorem exec_store {s t : State} {i : Instr} {a : Nat} {v : Int} (hs : s.Inv) (h : exec i s = .next t)
    (hst : storeOf i s = some (a, v)) : t.readCell a = v ∧ OnlyCellWritten a s t := by
  obtain ⟨hwf, hin, -⟩ := hs
  rcases exec_memory h with ⟨a', v', hst', hmem, hlen⟩ | ⟨hnone, -⟩
  · cases hst.symm.trans hst'
    obtain ⟨hother, hext⟩ := writeCell_onlyCell s a v hin
    have hread := readCell_congr hmem hlen
    exact ⟨(hread a).trans (readCell_writeCell_same s a v hwf), fun b hb => (hread b).trans (hother b hb), hlen.trans hext⟩
  · cases hst.symm.trans hnone

/-- An instruction that stores nothing leaves the memory and the extent. -/
theorem exec_no_store {s t : State} {i : Instr} (h : exec i s = .next t) (hst : storeOf i s = none) :
    t.mem = s.mem ∧ t.len = s.len := by
  rcases exec_memory h with ⟨a, v, hst', -⟩ | ⟨-, hmem⟩
  · cases hst.symm.trans hst'
  · exact hmem

/-- Settles O32: by cases on whether the instruction stores, `exec_store` and `exec_no_store`. -/
theorem onlyTheNamedCellChanges : Obligations.OnlyTheNamedCellChanges := by
  intro i s t hs h
  refine ⟨fun a v hst => ?_, fun a hst => ?_, exec_no_store h⟩
  · obtain ⟨hcell, -, hlen⟩ := exec_store hs h hst
    exact ⟨hcell, hlen⟩
  · cases ho : storeOf i s with
    | none =>
      obtain ⟨hmem, hlen⟩ := exec_no_store h ho
      exact readCell_congr hmem hlen a
    | some p =>
      obtain ⟨-, hother, -⟩ := exec_store hs h ho
      exact hother a fun hap => hst p.2 (hap ▸ ho)

/-- Settles O33: the cell the pointer addresses holds what was stored, so the next step runs it. -/
theorem nextFetchSeesTheStore : Obligations.NextFetchSeesTheStore := by
  intro s t i j v hs hd h ht hst hj
  rw [step_of_decode_ok (step_next h).1 hd] at h
  exact step_of_decode_ok ht ((exec_store hs h hst).1 ▸ hj)

/-- No step shortens the extent. -/
theorem step_len_le {s t : State} (h : step s = .next t) : s.len ≤ t.len := by
  rcases step_memory h with ⟨a, v, -, hlen⟩ | ⟨-, hlen⟩
  · exact hlen ▸ le_writeCell_len s a v
  · exact hlen.ge

/-- Settles O41: a step writes at most once, and no other move but a reset touches the extent. -/
theorem extentNeverDecreases : Obligations.ExtentNeverDecreases := by
  refine ⟨fun _ _ => step_len_le, fun m x y hm h => ?_⟩
  rcases hostMove_cases h with ⟨p, i, rfl, -⟩ | ⟨-, rfl⟩ | ⟨v, -, rfl⟩ | ⟨k, -, -, rfl⟩
  · exact absurd rfl (hm p i)
  · rcases stepRequest_cases x.core with ⟨t, ht, hr⟩ | ⟨-, hr⟩
    · exact hr ▸ step_len_le ht
    · exact hr ▸ Nat.le_refl _
  · exact Nat.le_refl _
  · exact Nat.le_refl _

/-- The recorded value of a step's fault is one its cause can have (R161, R163, R164). -/
theorem stepRaises_cause_wf {s : State} {c : Cause} (h : StepRaises s c) : c.wf = true := by
  cases h with
  | unknown h => exact decide_eq_true (decode_eq_error.1 h).1
  | @decoded i c hd hr =>
    cases c with
    | unknownOpcode w => exact absurd hr not_raises_unknownOpcode
    | inputStarved => rfl
    | negativeAddress a => exact decide_eq_true (raises_negativeAddress hr).1
    | invalidMode k d =>
      obtain ⟨r, j, rfl, hj⟩ := raises_invalidMode hr
      obtain ⟨h3, h9⟩ := decoded_invalid_digit hd hj
      have := (List.getElem?_eq_some_iff.1 hj).1
      have := operands_length i
      exact decide_eq_true ⟨by omega, by omega, h3, h9⟩

/-- A step that answers a next state leaves a status that records nothing impossible (R25, R160). -/
theorem step_status_wf {s t : State} (h : step s = .next t) : t.status.wf = true := by
  cases ht : t.status with
  | running => rfl
  | halted => rfl
  | faulted c => exact stepRaises_cause_wf ((step_faulted_iff h).1 ht)

/-- Every step keeps the invariant. -/
theorem step_inv {s t : State} (hs : s.Inv) (h : step s = .next t) : t.Inv := by
  obtain ⟨hwf, hin, -⟩ := hs
  rcases step_memory h with ⟨a, v, hmem, hlen⟩ | ⟨hmem, hlen⟩
  · exact ⟨hmem ▸ store_wf s.mem a v hwf, hmem ▸ hlen ▸ store_within s.mem s.len a v hin, step_status_wf h⟩
  · exact ⟨hmem ▸ hwf, hmem ▸ hlen ▸ hin, step_status_wf h⟩

/-- Every host move keeps the invariant: a reset meets it, a step keeps it, a push and a drain touch channels only. -/
theorem hostMove_inv {m : HostMove} {x y : Session} (hx : x.core.Inv) (h : hostMove m x = some y) : y.core.Inv := by
  rcases hostMove_cases h with ⟨p, i, -, rfl⟩ | ⟨-, rfl⟩ | ⟨v, -, rfl⟩ | ⟨k, -, -, rfl⟩
  · exact hostReset_inv p i
  · rcases stepRequest_cases x.core with ⟨t, ht, hr⟩ | ⟨-, hr⟩
    · exact hr ▸ step_inv hx ht
    · exact hr ▸ hx
  · exact hx
  · exact hx

/-- Settles O50: reset with the empty program and input is a reset. -/
theorem resetMeetsTheInvariant : Obligations.ResetMeetsTheInvariant :=
  hostReset_inv [] []

/-- Settles O51: the memory changes by one store at most, which keeps the canonical form and the extent, and the status records
what the step raised. -/
theorem stepKeepsTheInvariant : Obligations.StepKeepsTheInvariant :=
  fun _ _ => step_inv

/-- Settles O52: by induction on the moves, each of which keeps the invariant. -/
theorem hostMovesKeepTheInvariant : Obligations.HostMovesKeepTheInvariant := by
  intro ms
  induction ms with
  | nil =>
    intro x y hx h
    cases h
    exact hx
  | cons m ms ih =>
    intro x y hx h
    obtain ⟨z, hz, hy⟩ := hostMoves_cons_eq_some.1 h
    exact ih z y (hostMove_inv hx hz) hy

/-- The final memory of the core just reset is the program (R33, R148). -/
theorem finalMemory_hostReset (p i : List Int) : finalMemory (hostReset p i) = p := by
  refine List.ext_getElem (by simp [finalMemory, hostReset]) fun n _ hn => ?_
  simp [finalMemory, hostReset_readCell, hn]

/-- Settles O39: a loaded cell reads as the program's integer and every other as 0; the other elements are the reset's own. -/
theorem resetLeaves : Obligations.ResetLeaves := by
  refine ⟨fun p i x => ⟨rfl, fun a ha => ?_, fun a ha => ?_, rfl, finalMemory_hostReset p i, rfl, rfl, rfl, rfl, rfl⟩, rfl⟩
  · rw [hostReset_readCell, List.getD_eq_getElem _ _ ha, List.getElem?_eq_getElem ha]
  · exact readCell_beyond _ ha

end Sys2Proof.Machine

/-! PROOFS. The input channel (42_io.md, 50_host_interface.md): which steps move an item, and that a step looks at the items it
consumes and at no other. -/

namespace Sys2Proof.Machine

section
variable {s t : State} {i : Instr} {c : Cause}

/-- The items an instruction moves: output appends its value, input takes the head, no other touches a channel. -/
theorem effect_channels (h : Effect s i t) :
    (t.outq = s.outq ∨ ∃ m v, i = .output m ∧ val 1 m s = .ok v ∧ t.outq = s.outq ++ [v]) ∧
      (t.inq = s.inq ∨ ∃ m d v, i = .input m ∧ dst 1 m s = .ok d ∧ s.inq = v :: t.inq) := by
  cases h with
  | input hd hq => exact ⟨.inl rfl, .inr ⟨_, _, _, rfl, hd, hq⟩⟩
  | output hv => exact ⟨.inr ⟨_, _, rfl, hv, rfl⟩, .inl rfl⟩
  | _ => exact ⟨.inl rfl, .inl rfl⟩

/-! ## The same step on another input channel -/

@[simp] theorem resolveOperand_setInput (k : Nat) (r : Role) (m : Mode) (q : List Int) :
    resolveOperand k r m (setInput q s) = resolveOperand k r m s := rfl

/-- Phase 4 does not look at the input channel. -/
@[simp] theorem resolveFrom_setInput (k : Nat) (ops : List (Role × Mode)) (q : List Int) :
    resolveFrom k ops (setInput q s) = resolveFrom k ops s := by
  induction ops generalizing k with
  | nil => rfl
  | cons o ops ih => simp only [resolveFrom, resolveOperand_setInput, ih]

/-- An instruction that completes consumes some items from the head, none or one, and has the same effect wherever these stand
at the head, whatever waits behind them. -/
theorem effect_setInput (h : Effect s i t) :
    ∃ used, s.inq = used ++ t.inq ∧ ∀ q, Effect (setInput (used ++ q) s) i (setInput q t) := by
  cases h with
  | @store i d v hlen h =>
    refine ⟨[], rfl, fun q => ?_⟩
    cases i with
    | add | mul | lessThan | equals => exact .store (s := setInput q s) rfl h
    | _ => cases hlen
  | @input m d v rest hd hq => exact ⟨[v], hq, fun q => .input (s := setInput (v :: q) s) hd rfl⟩
  | output hv => exact ⟨[], rfl, fun q => .output (s := setInput q s) hv⟩
  | takenIfTrue h1 h2 hp => exact ⟨[], rfl, fun q => .takenIfTrue (s := setInput q s) h1 h2 hp⟩
  | fallIfTrue h1 h2 hp => exact ⟨[], rfl, fun q => .fallIfTrue (s := setInput q s) h1 h2 hp⟩
  | takenIfFalse h1 h2 hp => exact ⟨[], rfl, fun q => .takenIfFalse (s := setInput q s) h1 h2 hp⟩
  | fallIfFalse h1 h2 hp => exact ⟨[], rfl, fun q => .fallIfFalse (s := setInput q s) h1 h2 hp⟩
  | base hv => exact ⟨[], rfl, fun q => .base (s := setInput q s) hv⟩
  | halt => exact ⟨[], rfl, fun q => .halt (s := setInput q s)⟩

/-- An instruction that raises anything but `InputStarved` raises it whatever waits in the input channel. -/
theorem raises_setInput (h : Raises s i c) (hc : c ≠ .inputStarved) (q : List Int) : Raises (setInput q s) i c := by
  cases h with
  | operand h => exact .operand ((resolveFrom_setInput 1 _ q).trans h)
  | starved => exact absurd rfl hc
  | targetIfTrue h1 h2 hp hv => exact .targetIfTrue (s := setInput q s) h1 h2 hp hv
  | targetIfFalse h1 h2 hp hv => exact .targetIfFalse (s := setInput q s) h1 h2 hp hv

/-- A step that raises anything but `InputStarved` raises it whatever waits in the input channel. -/
theorem stepRaises_setInput (h : StepRaises s c) (hc : c ≠ .inputStarved) (q : List Int) :
    StepRaises (setInput q s) c := by
  cases h with
  | unknown h => exact .unknown (s := setInput q s) h
  | decoded hd hr => exact .decoded (s := setInput q s) hd (raises_setInput hr hc q)

/-- A step that does not starve consumes some items from the head, none or one, and is the same step wherever these stand at
the head, whatever waits behind them (R110, R149). -/
theorem step_setInput (h : step s = .next t) (ht : t.status ≠ .faulted .inputStarved) :
    ∃ used, s.inq = used ++ t.inq ∧ ∀ q, step (setInput (used ++ q) s) = .next (setInput q t) := by
  obtain ⟨hs, ⟨i, hd, he⟩ | ⟨c, rfl, hr⟩⟩ := step_cases h
  · obtain ⟨used, hq, he'⟩ := effect_setInput he
    exact ⟨used, hq, fun q => (step_of_decode_ok (s := setInput (used ++ q) s) hs hd).trans (exec_of_effect (he' q))⟩
  · have hc : c ≠ .inputStarved := fun hc => ht (hc ▸ takeFault_status s c)
    exact ⟨[], rfl, fun q => step_of_raises (s := setInput q s) hs (stepRaises_setInput hr hc q)⟩

/-! ## Pushing an item, and starving -/

/-- A push is another input channel. -/
theorem pushInput_eq_setInput (v : Int) (s : State) : pushInput v s = setInput (s.inq ++ [v]) s := rfl

/-- A step that does not starve leaves a pushed item at the tail (R144). -/
theorem step_pushInput (h : step s = .next t) (ht : t.status ≠ .faulted .inputStarved) (v : Int) :
    step (pushInput v s) = .next (pushInput v t) := by
  obtain ⟨used, hq, hstep⟩ := step_setInput h ht
  rw [pushInput_eq_setInput, hq, List.append_assoc]
  exact hstep _

/-- A step that starves found the channel empty, and with one item there it would have consumed it and completed. -/
theorem step_pushInput_of_starved (h : step s = .next t) (ht : t.status = .faulted .inputStarved) (v : Int) :
    ∃ u, step (pushInput v s) = .next u ∧ u.status = .running ∧ u.inq = [] ∧ u.ip = s.ip + 2 := by
  obtain ⟨hs, -⟩ := step_next h
  obtain ⟨hq, m, d, hd, hm⟩ := onlyInputStarves s t h ht
  have hq' : (pushInput v s).inq = [v] := by rw [pushInput_inq, hq, List.nil_append]
  have he : Effect (pushInput v s) (.input m) (advance 2 ((setInput [] (pushInput v s)).writeCell d v)) := .input hm hq'
  exact ⟨_, (step_of_decode_ok (s := pushInput v s) hs hd).trans (exec_of_effect he), hs, rfl, rfl⟩

/-- The blocking policy takes a step that does not starve, and that one only. -/
theorem stepBlocking_of_next (h : step s = .next t) :
    stepBlocking s = if t.status = .faulted .inputStarved then none else some t := by
  simp only [stepBlocking, h]

/-- The blocking policy holds the core exactly where its step would starve. -/
theorem inputHeld_of_next (h : step s = .next t) : inputHeld s = decide (t.status = .faulted .inputStarved) := by
  simp only [inputHeld, h]

end

/-- Settles O42: an effect moves what `effect_channels` says, and a fault moves nothing. -/
theorem channelsMoveByOneItem : Obligations.ChannelsMoveByOneItem := by
  intro s t h
  obtain ⟨-, ⟨i, hd, he⟩ | ⟨c, rfl, -⟩⟩ := step_cases h
  · obtain ⟨hout, hin⟩ := effect_channels he
    exact ⟨hout.imp_right fun ⟨m, v, hi, hrest⟩ => ⟨m, v, hi ▸ hd, hrest⟩,
      hin.imp_right fun ⟨m, d, v, hi, hrest⟩ => ⟨m, d, v, hi ▸ hd, hrest⟩⟩
  · exact ⟨.inl rfl, .inl rfl⟩

/-- Settles O44: a push is a law of the model, and the step clauses are `step_pushInput` and `step_pushInput_of_starved`. -/
theorem pushedInputWaitsItsTurn : Obligations.PushedInputWaitsItsTurn :=
  ⟨fun _ _ => rfl, fun v _ _ h ht => step_pushInput h ht v, fun v _ _ _ h ht => step_pushInput_of_starved h ht v⟩

/-- Settles O47: the core is held where its step starves; with a pushed item that step completes by
`step_pushInput_of_starved`. -/
theorem blockingPolicyDiffersOnlyWhenHeld : Obligations.BlockingPolicyDiffersOnlyWhenHeld := by
  intro s hs
  obtain ⟨t, ht⟩ := step_of_running hs
  simp only [inputHeld_of_next ht, stepBlocking_of_next ht, decide_eq_true_eq, decide_eq_false_iff_not]
  refine ⟨fun hst => ⟨if_pos hst, ht.trans (congrArg _ (step_faulted ht hst).1), fun v => ?_⟩, fun hst => ?_⟩
  · obtain ⟨u, hu, hrun, hq, -⟩ := step_pushInput_of_starved ht hst v
    exact ⟨u, by rw [stepBlocking_of_next hu, if_neg (by simp [hrun])], hq⟩
  · rw [if_neg hst, stepRequest_of_next ht]

end Sys2Proof.Machine

/-! PROOFS. Sessions and runs (50_host_interface.md sections 2 and 3): a session without a reset is the run that had from the
start the items it consumed, whatever was pushed or drained when; what a stopped core keeps. -/

namespace Sys2Proof.Machine

/-- The core of a session as it would be with nothing drained and with `q` in its input channel. -/
def Session.undrained (q : List Int) (x : Session) : State :=
  setInput q (setOutput x.totalOutput x.core)

section
variable {x y : Session} {ms : List HostMove} {q : List Int}

/-- A step that does not starve is the same step of the undrained core, and what it pushes extends the total output. -/
theorem step_undrained {t : State} (h : step x.core = .next t) (ht : t.status ≠ .faulted .inputStarved) :
    ∃ used, x.core.inq = used ++ t.inq ∧
      ∀ q, step (x.undrained (used ++ q)) = .next (Session.undrained q ⟨t, x.drained⟩) := by
  have hout : x.totalOutput ++ pushedByStep x.core = Session.totalOutput ⟨t, x.drained⟩ := by
    have := totalOutput_stepRequest x.core x.drained
    rw [stepRequest_of_next h] at this
    exact this.symm
  obtain ⟨used, hq, hstep⟩ := step_setInput (step_setOutput (q := x.totalOutput) h) ht
  exact ⟨used, hq, fun q => by rw [Session.undrained, hstep q, hout, Session.undrained]⟩

/-- A step that starves does so in the undrained core, where nothing waits. -/
theorem step_undrained_of_starved {t : State} (h : step x.core = .next t) (ht : t.status = .faulted .inputStarved) :
    x.core.inq = [] ∧ t.inq = [] ∧ step (x.undrained []) = .next (Session.undrained [] ⟨t, x.drained⟩) := by
  obtain ⟨hs, -⟩ := step_next h
  obtain ⟨hq, m, d, hd, hm⟩ := onlyInputStarves _ t h ht
  obtain ⟨rfl, -⟩ := step_faulted h ht
  exact ⟨hq, hq, (step_of_decode_ok (s := x.undrained []) hs hd).trans (exec_input_of_empty (s := x.undrained []) hm rfl)⟩

/-- A drain leaves the undrained core. -/
theorem undrained_drain (s : State) (d : List Int) (k : Nat) (q : List Int) :
    Session.undrained q ⟨{ s with outq := s.outq.drop k }, d ++ s.outq.take k⟩ = Session.undrained q ⟨s, d⟩ := by
  rw [Session.undrained, totalOutput_drain]
  rfl

/-- A core that is stopped is so in the undrained session. -/
theorem undrained_stopped (h : x.core.status ≠ .running) (q : List Int) : (x.undrained q).status ≠ .running := h

/-- A run whose first step is enabled is that step and then the rest. -/
theorem runFor_succ_of_next {n : Nat} {s t : State} (h : step s = .next t) : runFor (n + 1) s = runFor n t := by
  rw [runFor_succ, stepRequest_of_next h]

/-- From `x`, whose host has `given` unread or still to push, `y` is reached by `n` step requests: `y` consumed the head `used` of
`given`, and the run of `n` steps of the undrained core that had `used`, and any items behind it, ends in the undrained core of
`y` with those unread. A core that starved had none behind it. -/
def Session.RunsTo (x : Session) (given : List Int) (n : Nat) (y : Session) : Prop :=
  ∃ used, given = used ++ y.core.inq ∧
    ∀ q, (y.core.status = .faulted .inputStarved → q = []) → runFor n (x.undrained (used ++ q)) = y.undrained q

section
variable {t : State} {given : List Int} {n : Nat}

/-- A step that does not starve goes before a run. -/
theorem runsTo_of_step (h : step x.core = .next t) (ht : t.status ≠ .faulted .inputStarved)
    (hrun : Session.RunsTo ⟨t, x.drained⟩ (t.inq ++ given) n y) : x.RunsTo (x.core.inq ++ given) (n + 1) y := by
  obtain ⟨used, hgiven, hrun⟩ := hrun
  obtain ⟨first, hq, hstep⟩ := step_undrained h ht
  refine ⟨first ++ used, by rw [hq, List.append_assoc, hgiven, List.append_assoc], fun q hlast => ?_⟩
  rw [List.append_assoc, runFor_succ_of_next (hstep _), hrun q hlast]

/-- From a core that is not running every run is at its end: it consumes nothing. -/
theorem runsTo_of_stopped (hs : x.core.status ≠ .running) (hrun : x.RunsTo given n y) :
    given = y.core.inq ∧ x.undrained [] = y.undrained [] := by
  obtain ⟨used, hgiven, hrun⟩ := hrun
  have hend := hrun [] fun _ => rfl
  rw [runFor_of_stopped (undrained_stopped hs _), List.append_nil] at hend
  obtain rfl : used = [] := congrArg State.inq hend
  exact ⟨hgiven, hend⟩

/-- A step that starves goes before a run, which it has ended. -/
theorem runsTo_of_starved_step (h : step x.core = .next t) (ht : t.status = .faulted .inputStarved)
    (hrun : Session.RunsTo ⟨t, x.drained⟩ (t.inq ++ given) n y) : x.RunsTo (x.core.inq ++ given) (n + 1) y := by
  obtain ⟨hx, htq, hstep⟩ := step_undrained_of_starved h ht
  have hstopped : t.status ≠ .running := by simp [ht]
  obtain ⟨hgiven, hend⟩ := runsTo_of_stopped (x := ⟨t, x.drained⟩) hstopped hrun
  refine ⟨[], by simp [hx, ← hgiven, htq], fun q hlast => ?_⟩
  obtain rfl := hlast ((congrArg State.status hend).symm.trans ht)
  rw [List.nil_append, runFor_succ_of_next hstep, ← hend, runFor_of_stopped (undrained_stopped hstopped _)]

/-- A step request goes before a run: it is the step, or nothing where no step is enabled (R142). -/
theorem runsTo_of_stepRequest
    (hrun : Session.RunsTo ⟨(stepRequest x.core).1, x.drained⟩ ((stepRequest x.core).1.inq ++ given) n y) :
    x.RunsTo (x.core.inq ++ given) (n + 1) y := by
  rcases stepRequest_cases x.core with ⟨t, ht, hr⟩ | ⟨hs, hr⟩
  · rw [hr] at hrun
    by_cases hst : t.status = .faulted .inputStarved
    · exact runsTo_of_starved_step ht hst hrun
    · exact runsTo_of_step ht hst hrun
  · rw [hr] at hrun
    obtain ⟨used, hgiven, hrun⟩ := hrun
    refine ⟨used, hgiven, fun q hlast => ?_⟩
    rw [runFor_of_stopped (undrained_stopped hs _), ← hrun q hlast]
    exact (runFor_of_stopped (undrained_stopped hs _) n).symm

end

/-- A session without a reset is a run of as many steps as it requests, given what was unread and what it pushes (R149). -/
theorem hostMoves_runsTo (hms : ∀ p i, HostMove.reset p i ∉ ms) (h : hostMoves ms x = some y) :
    x.RunsTo (x.core.inq ++ suppliedItems ms) (ms.count .step) y := by
  induction ms generalizing x with
  | nil =>
    cases h
    exact ⟨[], List.append_nil _, fun _ _ => rfl⟩
  | cons m ms ih =>
    have hrest (p i) : HostMove.reset p i ∉ ms := fun hp => hms p i (List.mem_cons_of_mem m hp)
    obtain ⟨z, hz, hy⟩ := hostMoves_cons_eq_some.1 h
    have hrun := ih hrest hy
    rcases hostMove_cases hz with ⟨p, i, rfl, -⟩ | ⟨rfl, rfl⟩ | ⟨v, rfl, rfl⟩ | ⟨k, rfl, -, rfl⟩
    · exact absurd List.mem_cons_self (hms p i)
    · rw [List.count_cons_self, suppliedItems_step]
      exact runsTo_of_stepRequest hrun
    · rw [pushInput_inq, List.append_assoc, List.singleton_append] at hrun
      exact hrun
    · simp only [Session.RunsTo, undrained_drain] at hrun
      exact hrun

/-- What the host reads back is read off the undrained core. -/
theorem readBack_undrained (x : Session) : Session.readBack ⟨x.undrained x.core.inq, []⟩ = x.readBack := rfl

/-- Sessions with one unread input and one undrained core read back the same. -/
theorem readBack_congr {u v : Session} (hq : u.core.inq = v.core.inq) (h : u.undrained q = v.undrained q) :
    u.readBack = v.readBack := by
  have h' := congrArg (setInput u.core.inq) h
  rw [← readBack_undrained u, ← readBack_undrained v, ← hq]
  exact congrArg (fun s => Session.readBack ⟨s, []⟩) h'

/-- The run of as many steps that had every item from the start ends in the undrained core of a session that did not starve. -/
theorem runFor_of_not_starved {p i : List Int} (hms : ∀ q j, HostMove.reset q j ∉ ms)
    (h : hostMoves (.reset p i :: ms) x = some y) (hy : y.core.status ≠ .faulted .inputStarved) :
    runFor (ms.count .step) (hostReset p (i ++ suppliedItems ms)) = y.undrained y.core.inq := by
  obtain ⟨used, hgiven, hrun⟩ := hostMoves_runsTo hms h
  rw [show i ++ suppliedItems ms = used ++ y.core.inq from hgiven]
  exact hrun _ fun hst => absurd hst hy

end

/-- Settles O43: by `hostMoves_runsTo` the session is a run from a core that is not running, which consumes nothing and leaves
the undrained core. -/
theorem stoppedCoreStaysStopped : Obligations.StoppedCoreStaysStopped := by
  refine ⟨fun ms x y hs hms h => ?_, fun n s hs => runFor_of_stopped hs n⟩
  obtain ⟨hgiven, hend⟩ := runsTo_of_stopped hs (hostMoves_runsTo hms h)
  exact ⟨(congrArg State.mem hend).symm, (congrArg State.len hend).symm, (congrArg State.ip hend).symm,
    (congrArg State.rb hend).symm, (congrArg State.status hend).symm, (congrArg State.outq hend).symm, hgiven.symm⟩

/-- Settles O46: by `hostMoves_runsTo` each session is a run of the core reset with the items it consumed (all items, if it
did not starve); two runs from one state that are over end in one state. -/
theorem outcomeDependsOnlyOnProgramAndTimelyItems : Obligations.OutcomeDependsOnlyOnProgramAndTimelyItems := by
  refine ⟨fun p i ms x u hms hu hst => ?_, fun p i j ms ns x y u v hms hns hu hv hitems hsu hsv => ⟨?_, ?_⟩⟩
  · rw [runFor_of_not_starved hms hu hst, readBack_undrained]
  · intro hstu hstv
    have hru := runFor_of_not_starved hms hu hstu
    have hrv := runFor_of_not_starved hns hv hstv
    rw [← hitems] at hrv
    have hend := runEnds_unique ⟨undrained_stopped hsu _, _, hru⟩ ⟨undrained_stopped hsv _, _, hrv⟩
    rw [← readBack_undrained u, hend, readBack_undrained]
  · intro _ _ hlen
    obtain ⟨used, hgiven, hru⟩ := hostMoves_runsTo hms hu
    obtain ⟨used', hgiven', hrv⟩ := hostMoves_runsTo hns hv
    have hsplit : used ++ u.core.inq = used' ++ v.core.inq := hgiven.symm.trans (hitems.trans hgiven')
    obtain ⟨rfl, hq⟩ := List.append_inj' hsplit hlen
    exact readBack_congr hq (runEnds_unique ⟨undrained_stopped hsu [], _, hru [] fun _ => rfl⟩
      ⟨undrained_stopped hsv [], _, hrv [] fun _ => rfl⟩)

end Sys2Proof.Machine

/-! PROOFS. The transactions of a step (20_memory.md section 5, R56): the fetch, the operands' reads in slot order, at most one
write, and that a step depends on no cell but those it reads. -/

namespace Sys2Proof.Machine

section
variable {s t : State} {i : Instr} {c : Cause}

/-! ## The transactions by the parts of a step -/

/-- The transactions of a decoded instruction: the fetch, the reads of phase 4, the write. -/
theorem stepTransactions_of_decode_ok (hs : s.status = .running) (hd : decode (s.readCell s.ip) = .ok i) :
    stepTransactions s = .read s.ip :: (readsFrom 1 i.operands s ++ storeTxn i s) := by
  simp only [stepTransactions, hs, fetchDecode_eq_ok.2 hd]

/-- A word that selects no row makes the fetch the only transaction. -/
theorem stepTransactions_of_decode_error {e : DecodeError} (hs : s.status = .running)
    (hd : decode (s.readCell s.ip) = .error e) : stepTransactions s = [.read s.ip] := by
  simp only [stepTransactions, hs, fetchDecode_eq_error.2 ⟨(decode_eq_error.1 hd).1, rfl⟩]

/-- There is no write exactly where the instruction stores nothing. -/
theorem storeTxn_eq_nil : storeTxn i s = [] ↔ storeOf i s = none := by
  unfold storeTxn
  cases storeOf i s <;> simp

/-- The write is the instruction's store. -/
theorem storeTxn_eq_write {a : Nat} {v : Int} : storeTxn i s = [.write a v] ↔ storeOf i s = some (a, v) := by
  unfold storeTxn
  cases storeOf i s <;> simp [Prod.ext_iff]

/-- There is at most one write. -/
theorem storeTxn_cases (i : Instr) (s : State) : storeTxn i s = [] ∨ ∃ a v, storeTxn i s = [.write a v] := by
  cases h : storeOf i s with
  | none => exact .inl (storeTxn_eq_nil.2 h)
  | some p => exact .inr ⟨p.1, p.2, storeTxn_eq_write.2 h⟩

/-! ## The reads of the operands -/

/-- A natural address reaches its cell. -/
@[simp] theorem cellRead_natCast (n : Nat) : cellRead (n : Int) = [.read n] := by
  simp [cellRead]

/-- A negative address reaches no cell (R41). -/
theorem cellRead_of_neg {a : Int} (h : a < 0) : cellRead a = [] :=
  if_pos h

/-- An operand that resolves reads what its mode and role say (R56). -/
theorem operandReads_of_ok {k : Nat} {r : Role} {m : Mode} (h : resolveOperand k r m s = .ok ()) :
    ∃ l, OperandReads s k r m l ∧ operandReads k r m s = l.map Txn.read := by
  cases r with
  | source =>
    obtain ⟨v, hv⟩ := resolveOperand_source.1 h
    cases m with
    | positional =>
      obtain ⟨n, hn, -⟩ := memRead_eq_ok.1 hv
      exact ⟨_, .positionalSource hn, by simp [operandReads, hn, slot]⟩
    | immediate => exact ⟨_, .immediateSource, rfl⟩
    | relative =>
      obtain ⟨n, hn, -⟩ := memRead_eq_ok.1 hv
      exact ⟨_, .relativeSource hn, by simp [operandReads, hn, slot]⟩
    | invalid d => cases hv
  | destination =>
    obtain ⟨a, ha⟩ := resolveOperand_destination.1 h
    cases m with
    | invalid d => cases ha
    | _ => exact ⟨_, .destination rfl, rfl⟩

/-- An operand that raises reads its slot, or nothing where its mode digit is refused (R56, R164). -/
theorem operandReads_of_raises {k : Nat} {m : Mode} (r : Role) (h : OperandRaises k m s c) :
    operandReads k r m s = (if m.legal then [s.ip + k] else []).map Txn.read := by
  rcases h with ⟨d, rfl, -⟩ | ⟨rfl, hneg, -⟩ | ⟨rfl, hneg, -⟩
  · rfl
  · cases r <;> simp [operandReads, cellRead_of_neg hneg, slot, Mode.legal]
  · cases r <;> simp [operandReads, cellRead_of_neg hneg, slot, Mode.legal]

/-- The reads of phase 4 over the operands `ops` from slot `i` on: `rs` for the operands that resolve, one by one, and `rest` for
the one that raises, where one does. -/
structure PhaseReads (s : State) (i : Nat) (ops : List (Role × Mode)) (rs : List (List Nat)) (rest : List Nat) : Prop where
  reads : readsFrom i ops s = (rs.flatten ++ rest).map Txn.read
  length_le : rs.length ≤ ops.length
  each : ∀ k r m l, ops[k]? = some (r, m) → rs[k]? = some l → OperandReads s (i + k) r m l
  of_ok : resolveFrom i ops s = .ok () → rs.length = ops.length ∧ rest = []
  of_error : ∀ c, resolveFrom i ops s = .error c → ∃ r m, ops[rs.length]? = some (r, m) ∧
    OperandRaises (i + rs.length) m s c ∧ rest = if m.legal then [s.ip + (i + rs.length)] else []

/-- The reads after an operand that resolves. -/
theorem PhaseReads.cons {k : Nat} {r : Role} {m : Mode} {ops : List (Role × Mode)} {l : List Nat} {rs : List (List Nat)}
    {rest : List Nat} (hok : resolveOperand k r m s = .ok ()) (hl : OperandReads s k r m l)
    (hreads : operandReads k r m s = l.map Txn.read) (h : PhaseReads s (k + 1) ops rs rest) :
    PhaseReads s k ((r, m) :: ops) (l :: rs) rest where
  reads := by simp [readsFrom, hok, hreads, h.reads]
  length_le := Nat.succ_le_succ h.length_le
  each j r' m' l' hops hrs := by
    cases j with
    | zero =>
      cases hops
      cases hrs
      exact hl
    | succ j => simpa only [Nat.add_assoc, Nat.add_comm 1] using h.each j r' m' l' hops hrs
  of_ok hall := by
    obtain ⟨hlen, hrest⟩ := h.of_ok (resolveFrom_cons_ok.1 hall).2
    exact ⟨congrArg (· + 1) hlen, hrest⟩
  of_error c hall := by
    rcases resolveFrom_cons_error.1 hall with he | ⟨-, he⟩
    · cases hok.symm.trans he
    · simpa only [List.length_cons, List.getElem?_cons_succ, Nat.add_assoc, Nat.add_comm 1] using h.of_error c he

/-- The reads at an operand that raises. -/
theorem PhaseReads.raise {k : Nat} {r : Role} {m : Mode} (ops : List (Role × Mode))
    (he : resolveOperand k r m s = .error c) :
    PhaseReads s k ((r, m) :: ops) [] (if m.legal then [s.ip + k] else []) where
  reads := by simp [readsFrom, he, operandReads_of_raises r (resolveOperand_eq_error.1 he)]
  length_le := Nat.zero_le _
  each _ _ _ _ _ hrs := by cases hrs
  of_ok hall := by cases he.symm.trans (resolveFrom_cons_ok.1 hall).1
  of_error c' hall := by
    rcases resolveFrom_cons_error.1 hall with he' | ⟨hok, -⟩
    · exact ⟨r, m, rfl, resolveOperand_eq_error.1 he', rfl⟩
    · cases he.symm.trans hok

/-- Phase 4 reads operand by operand, up to the first that raises (R56, R80). -/
theorem exists_phaseReads (s : State) (k : Nat) (ops : List (Role × Mode)) : ∃ rs rest, PhaseReads s k ops rs rest := by
  induction ops generalizing k with
  | nil => exact ⟨[], [], rfl, Nat.le_refl _, by simp, fun _ => ⟨rfl, rfl⟩, nofun⟩
  | cons o ops ih =>
    obtain ⟨r, m⟩ := o
    cases hr : resolveOperand k r m s with
    | ok u =>
      obtain ⟨l, hl, hreads⟩ := operandReads_of_ok hr
      obtain ⟨rs, rest, h⟩ := ih (k + 1)
      exact ⟨_, _, h.cons hr hl hreads⟩
    | error c => exact ⟨_, _, .raise ops hr⟩

/-! ## The write -/

/-- What an instruction stores goes to the cell that its destination operand names (R88). -/
theorem storeOf_destination {a : Nat} {v : Int} (h : storeOf i s = some (a, v)) :
    ∃ k m, i.operands[k]? = some (.destination, m) ∧ dst (k + 1) m s = .ok a := by
  have three {f : Int → Int → Int} {m1 m2 m3 : Mode} (h : resultStore f m1 m2 m3 s = some (a, v)) : dst 3 m3 s = .ok a := by
    unfold resultStore at h
    split at h
    next hd =>
      cases h
      exact hd
    next => cases h
  cases i with
  | add | mul | lessThan | equals => exact ⟨2, _, rfl, three h⟩
  | input m => exact ⟨0, m, rfl, (storeOf_input_eq_some.1 h).1⟩
  | _ => cases h

/-- An instruction that completes stores exactly where it has a destination operand. -/
theorem effect_stores_iff (h : Effect s i t) : storeOf i s ≠ none ↔ ∃ m, (Role.destination, m) ∈ i.operands := by
  cases h with
  | @store i d v hlen h =>
    refine ⟨fun _ => ?_, fun _ => by simp [h]⟩
    obtain ⟨k, m, hk, -⟩ := storeOf_destination h
    exact ⟨m, List.mem_of_getElem? hk⟩
  | @input m d v rest hd hq => simp [storeOf_input_eq_some.2 ⟨hd, rest, hq⟩, Instr.operands]
  | _ => simp [storeOf, Instr.operands]

/-- An instruction that ends in no fault completes. -/
theorem effect_of_no_fault (h : exec i s = .next t) (ht : ∀ c, t.status ≠ .faulted c) : Effect s i t := by
  rcases exec_next h with he | ⟨c, rfl, -⟩
  · exact he
  · exact absurd rfl (ht c)

/-- An instruction that ends in no fault has resolved its operands. -/
theorem resolveAll_of_no_fault (h : exec i s = .next t) (ht : ∀ c, t.status ≠ .faulted c) : resolveAll i s = .ok () := by
  cases hr : resolveAll i s with
  | ok u => rfl
  | error c =>
    cases h.symm.trans (exec_of_resolveAll_error hr)
    exact absurd rfl (ht c)

/-- An instruction that a running core ends in a fault stores nothing. -/
theorem storeOf_of_faulted (hs : s.status = .running) (h : exec i s = .next t) (ht : t.status = .faulted c) :
    storeOf i s = none := by
  rcases exec_next h with he | ⟨c', -, hr⟩
  · rcases effect_status he with ⟨-, hh⟩ | ⟨-, hh⟩
    · cases hh.symm.trans ht
    · cases hs.symm.trans (hh.symm.trans ht)
  · exact storeOf_of_raises hr

end

/-- Settles O48: the reads are those of phase 4 (`exists_phaseReads`) and the write is the instruction's store; where phase 4
raises, its fault is the step's. -/
theorem transactionsEndInOneWrite : Obligations.TransactionsEndInOneWrite := by
  intro s t h
  have hs := (step_next h).1
  cases hd : decode (s.readCell s.ip) with
  | error e =>
    cases h.symm.trans (step_of_decode_error hs hd)
    exact ⟨[], [], [], stepTransactions_of_decode_error hs hd, .inl rfl, fun _ _ => rfl, nofun, fun _ => ⟨rfl, rfl⟩,
      fun _ _ => ⟨rfl, rfl⟩, nofun⟩
  | ok i =>
    rw [step_of_decode_ok hs hd] at h
    obtain ⟨rs, rest, hp⟩ := exists_phaseReads s 1 i.operands
    refine ⟨rs, rest, storeTxn i s, ?_, storeTxn_cases i s, fun c hc => storeTxn_eq_nil.2 (storeOf_of_faulted hs h hc),
      fun a v hInv hw => (exec_store hInv h (storeTxn_eq_write.1 hw)).1, fun hw => exec_no_store h (storeTxn_eq_nil.1 hw),
      nofun, fun j hj => ?_⟩
    · rw [stepTransactions_of_decode_ok hs hd, hp.reads, List.cons_append]
    · cases hj
      refine ⟨⟨hp.length_le, fun k r m l hk hl => Nat.add_comm 1 k ▸ hp.each k r m l hk hl⟩, fun hc => ?_, fun c hc => ?_⟩
      · obtain ⟨hlen, hrest⟩ := hp.of_ok (resolveAll_of_no_fault h hc)
        exact ⟨hlen, hrest, (not_congr storeTxn_eq_nil).trans (effect_stores_iff (effect_of_no_fault h hc)),
          fun a v hw => storeOf_destination (storeTxn_eq_write.1 hw)⟩
      · cases hr : resolveAll i s with
        | ok u => exact .inl (hp.of_ok hr)
        | error c' =>
          cases h.symm.trans (exec_of_resolveAll_error hr)
          cases hc
          exact .inr (by simpa only [Nat.add_comm 1] using hp.of_error c hr)

/-! ## Two states that agree in the cells a step reads -/

/-- `s'` is `s` in everything but the memory and the extent. -/
def SameButMemory (s s' : State) : Prop :=
  s'.ip = s.ip ∧ s'.rb = s.rb ∧ s'.status = s.status ∧ s'.inq = s.inq ∧ s'.outq = s.outq

/-- Operand `k` resolves in `s'` as it does in `s`: to the same value or cell, or with the same raise. -/
def SameOperand (k : Nat) (r : Role) (m : Mode) (s s' : State) : Prop :=
  match r with
  | .source => val k m s' = val k m s
  | .destination => dst k m s' = dst k m s

section
variable {s s' t t' : State} {i : Instr} {c : Cause}

/-- A read is the same where the cell it reaches, if it reaches one, reads the same. -/
theorem memRead_agree {a : Int} (h : ∀ n, Txn.read n ∈ cellRead a → s'.readCell n = s.readCell n) :
    memRead a s' = memRead a s := by
  rw [memRead_eq_map, memRead_eq_map]
  cases ha : checkAddr a with
  | error c => rfl
  | ok n =>
    obtain rfl := checkAddr_eq_ok.1 ha
    exact congrArg Except.ok (h n (by simp))

/-- An operand resolves the same, with the same reads, in a state that agrees in the cells it reads. -/
theorem operand_agree {k : Nat} {r : Role} {m : Mode} (hip : s'.ip = s.ip) (hrb : s'.rb = s.rb)
    (h : ∀ a, Txn.read a ∈ operandReads k r m s → s'.readCell a = s.readCell a) :
    SameOperand k r m s s' ∧ operandReads k r m s' = operandReads k r m s := by
  have hslot : slot k s' = slot k s := congrArg (· + k) hip
  have hraw (hread : Txn.read (slot k s) ∈ operandReads k r m s) : raw k s' = raw k s := by
    rw [raw, raw, hslot, h _ hread]
  cases m with
  | invalid d => cases r <;> exact ⟨rfl, rfl⟩
  | immediate =>
    cases r with
    | source => exact ⟨congrArg Except.ok (hraw (by simp [operandReads])), by simp [operandReads, hslot]⟩
    | destination => exact ⟨by simp [SameOperand, hslot], by simp [operandReads, hslot]⟩
  | positional =>
    cases r with
    | source =>
      have hr := hraw (by simp [operandReads])
      refine ⟨?_, by simp [operandReads, hslot, hr]⟩
      rw [SameOperand, val_positional, val_positional, hr]
      exact memRead_agree fun n hn => h n (List.mem_cons_of_mem _ hn)
    | destination =>
      have hr := hraw (by simp [operandReads])
      exact ⟨by simp [SameOperand, hr], by simp [operandReads, hslot]⟩
  | relative =>
    cases r with
    | source =>
      have hr := hraw (by simp [operandReads])
      refine ⟨?_, by simp [operandReads, hslot, hr, hrb]⟩
      rw [SameOperand, val_relative, val_relative, hr, hrb]
      exact memRead_agree fun n hn => h n (List.mem_cons_of_mem _ hn)
    | destination =>
      have hr := hraw (by simp [operandReads])
      exact ⟨by simp [SameOperand, hr, hrb], by simp [operandReads, hslot]⟩

/-- Resolving an operand, kept to what it raises, follows its value or cell. -/
theorem resolveOperand_agree {k : Nat} {r : Role} {m : Mode} (h : SameOperand k r m s s') :
    resolveOperand k r m s' = resolveOperand k r m s := by
  cases r with
  | source => exact congrArg (Except.map fun _ => ()) h
  | destination => exact congrArg (Except.map fun _ => ()) h

/-- Phase 4 goes the same way, with the same reads, in a state that agrees in the cells it reads; where it ends well, every operand
resolves the same. -/
theorem readsFrom_agree {ops : List (Role × Mode)} {k : Nat} (hip : s'.ip = s.ip) (hrb : s'.rb = s.rb)
    (h : ∀ a, Txn.read a ∈ readsFrom k ops s → s'.readCell a = s.readCell a) :
    readsFrom k ops s' = readsFrom k ops s ∧ resolveFrom k ops s' = resolveFrom k ops s ∧
      (resolveFrom k ops s = .ok () → ∀ j r m, ops[j]? = some (r, m) → SameOperand (k + j) r m s s') := by
  induction ops generalizing k with
  | nil => exact ⟨rfl, rfl, fun _ => by simp⟩
  | cons o ops ih =>
    obtain ⟨r, m⟩ := o
    obtain ⟨hsame, hreads⟩ := operand_agree hip hrb fun a ha => h a (List.mem_append_left _ ha)
    have hres := resolveOperand_agree hsame
    cases ho : resolveOperand k r m s with
    | error c =>
      rw [ho] at hres
      exact ⟨by simp [readsFrom, hreads, hres, ho], by simp [resolveFrom, hres, ho, bind, Except.bind],
        fun hall => by cases ho.symm.trans (resolveFrom_cons_ok.1 hall).1⟩
    | ok u =>
      rw [ho] at hres
      obtain ⟨hreads', hres', hsame'⟩ := ih (k := k + 1) fun a ha => h a (by simp [readsFrom, ho, ha])
      refine ⟨by simp [readsFrom, hreads, hres, ho, hreads'], by simp [resolveFrom, hres, ho, hres', bind, Except.bind],
        fun hall j r' m' hj => ?_⟩
      cases j with
      | zero =>
        cases hj
        exact hsame
      | succ j =>
        simpa only [Nat.add_assoc, Nat.add_comm 1] using hsame' (resolveFrom_cons_ok.1 hall).2 j r' m' hj

/-- Two states in which every operand of an instruction resolves the same. -/
def SameOperands (i : Instr) (s s' : State) : Prop :=
  ∀ j r m, i.operands[j]? = some (r, m) → SameOperand (j + 1) r m s s'

/-- The store of an instruction follows its operands and the input channel. -/
theorem storeOf_agree (hops : SameOperands i s s') (hq : s'.inq = s.inq) : storeOf i s' = storeOf i s := by
  have three {f : Int → Int → Int} {m1 m2 m3 : Mode} (h1 : val 1 m1 s' = val 1 m1 s) (h2 : val 2 m2 s' = val 2 m2 s)
      (h3 : dst 3 m3 s' = dst 3 m3 s) : resultStore f m1 m2 m3 s' = resultStore f m1 m2 m3 s := by
    simp only [resultStore, h1, h2, h3]
  cases i with
  | add | mul | lessThan | equals => exact three (hops 0 _ _ rfl) (hops 1 _ _ rfl) (hops 2 _ _ rfl)
  | input m =>
    have h1 : dst 1 m s' = dst 1 m s := hops 0 _ _ rfl
    simp only [storeOf, h1, hq]
  | _ => rfl

/-- The effect of an instruction follows its operands, in everything but the memory. -/
theorem effect_agree (hops : SameOperands i s s') (hsame : SameButMemory s s') (h : Effect s i t) :
    ∃ t', Effect s' i t' ∧ SameButMemory t t' := by
  obtain ⟨hip, hrb, hst, hq, hout⟩ := hsame
  have hadd (n : Nat) : s'.ip + n = s.ip + n := congrArg (· + n) hip
  cases h with
  | store hlen h => exact ⟨_, .store hlen ((storeOf_agree hops hq).trans h), hadd 4, hrb, hst, hq, hout⟩
  | input hd hq' => exact ⟨_, .input ((hops 0 _ _ rfl).trans hd) (hq.trans hq'), hadd 2, hrb, hst, rfl, hout⟩
  | output hv => exact ⟨_, .output ((hops 0 _ _ rfl).trans hv), hadd 2, hrb, hst, hq, congrArg (· ++ _) hout⟩
  | takenIfTrue h1 h2 hp =>
    exact ⟨_, .takenIfTrue ((hops 0 _ _ rfl).trans h1) ((hops 1 _ _ rfl).trans h2) hp, rfl, hrb, hst, hq, hout⟩
  | fallIfTrue h1 h2 hp =>
    exact ⟨_, .fallIfTrue ((hops 0 _ _ rfl).trans h1) ((hops 1 _ _ rfl).trans h2) hp, hadd 3, hrb, hst, hq, hout⟩
  | takenIfFalse h1 h2 hp =>
    exact ⟨_, .takenIfFalse ((hops 0 _ _ rfl).trans h1) ((hops 1 _ _ rfl).trans h2) hp, rfl, hrb, hst, hq, hout⟩
  | fallIfFalse h1 h2 hp =>
    exact ⟨_, .fallIfFalse ((hops 0 _ _ rfl).trans h1) ((hops 1 _ _ rfl).trans h2) hp, hadd 3, hrb, hst, hq, hout⟩
  | base hv => exact ⟨_, .base ((hops 0 _ _ rfl).trans hv), hadd 2, congrArg (· + _) hrb, hst, hq, hout⟩
  | halt => exact ⟨_, .halt, hip, hrb, rfl, hq, hout⟩

/-- What an instruction raises after phase 4 ended well follows its operands and the input channel. -/
theorem raises_agree (hops : SameOperands i s s') (hq : s'.inq = s.inq) (hok : resolveAll i s = .ok ())
    (h : Raises s i c) : Raises s' i c := by
  cases h with
  | operand h => cases hok.symm.trans h
  | starved hd hq' => exact .starved ((hops 0 _ _ rfl).trans hd) (hq.trans hq')
  | targetIfTrue h1 h2 hp hv => exact .targetIfTrue ((hops 0 _ _ rfl).trans h1) ((hops 1 _ _ rfl).trans h2) hp hv
  | targetIfFalse h1 h2 hp hv => exact .targetIfFalse ((hops 0 _ _ rfl).trans h1) ((hops 1 _ _ rfl).trans h2) hp hv

/-- A fault leaves two states as close as they were. -/
theorem takeFault_agree (hsame : SameButMemory s s') (c : Cause) : SameButMemory (takeFault c s) (takeFault c s') := by
  obtain ⟨hip, hrb, -, hq, hout⟩ := hsame
  exact ⟨hip, hrb, rfl, hq, hout⟩

/-- A decoded instruction goes the same way, with the same store, in a state that agrees in the cells phase 4 reads. -/
theorem exec_agree (hsame : SameButMemory s s')
    (h : ∀ a, Txn.read a ∈ readsFrom 1 i.operands s → s'.readCell a = s.readCell a) (ht : exec i s = .next t)
    (ht' : exec i s' = .next t') : storeOf i s' = storeOf i s ∧ SameButMemory t t' := by
  have ⟨hip, hrb, _, hq, _⟩ := hsame
  obtain ⟨-, hres, hops⟩ := readsFrom_agree hip hrb h
  have fault {c : Cause} (hr : Raises s i c) (hr' : Raises s' i c) :
      storeOf i s' = storeOf i s ∧ SameButMemory t t' := by
    cases ht.symm.trans (exec_of_raises hr)
    cases ht'.symm.trans (exec_of_raises hr')
    exact ⟨(storeOf_of_raises hr').trans (storeOf_of_raises hr).symm, takeFault_agree hsame c⟩
  cases hok : resolveAll i s with
  | error c => exact fault (.operand hok) (.operand (hres.trans hok))
  | ok u =>
    have hops' : SameOperands i s s' := fun j r m hj => Nat.add_comm 1 j ▸ hops hok j r m hj
    rcases exec_next ht with he | ⟨c, rfl, hr⟩
    · obtain ⟨u, hu, hsameu⟩ := effect_agree hops' hsame he
      cases ht'.symm.trans (exec_of_effect hu)
      exact ⟨storeOf_agree hops' hq, hsameu⟩
    · exact fault hr (raises_agree hops' hq hok hr)

end

/-- Settles O49: the fetch reads the same word, so the same instruction runs, and `readsFrom_agree` and `exec_agree` say that it
goes the same way. -/
theorem stepDependsOnlyOnTheCellsItReads : Obligations.StepDependsOnlyOnTheCellsItReads := by
  intro s s' t t' hip hrb hst hq hout hcells ht ht'
  have hsame : SameButMemory s s' := ⟨hip, hrb, hst, hq, hout⟩
  have hs := (step_next ht).1
  have hs' := (step_next ht').1
  cases hd : decode (s.readCell s.ip) with
  | error e =>
    have hword : s'.readCell s'.ip = s.readCell s.ip := by
      rw [hip, hcells _ (by rw [stepTransactions_of_decode_error hs hd]; exact List.mem_cons_self)]
    have hd' : decode (s'.readCell s'.ip) = .error e := by rw [hword, hd]
    have hstep' := step_of_decode_error hs' hd'
    rw [hword] at hstep'
    cases ht.symm.trans (step_of_decode_error hs hd)
    cases ht'.symm.trans hstep'
    rw [stepTransactions_of_decode_error hs hd, stepTransactions_of_decode_error hs' hd', hip]
    exact ⟨rfl, takeFault_agree hsame _⟩
  | ok i =>
    rw [stepTransactions_of_decode_ok hs hd] at hcells ⊢
    have hd' : decode (s'.readCell s'.ip) = .ok i := by rw [hip, hcells _ List.mem_cons_self, hd]
    have hreads (a : Nat) (ha : Txn.read a ∈ readsFrom 1 i.operands s) : s'.readCell a = s.readCell a :=
      hcells a (List.mem_cons_of_mem _ (List.mem_append_left _ ha))
    rw [step_of_decode_ok hs hd] at ht
    rw [step_of_decode_ok hs' hd'] at ht'
    obtain ⟨hstore, hsamet⟩ := exec_agree hsame hreads ht ht'
    refine ⟨?_, hsamet⟩
    rw [stepTransactions_of_decode_ok hs' hd', hip, (readsFrom_agree hip hrb hreads).1, storeTxn, storeTxn, hstore]

end Sys2Proof.Machine
